-- ==== Sys2Proof/Word.lean ====
section
/-! DEFINITION. The word types that travel on FXP's ports (spec 10_state.md R30, 30_encoding.md R57 and R58). -/

namespace Sys2Proof

/-- A 32-bit port word: a float32 pattern or the pattern of a `value` (R30, R48). Bit 0 is the least significant (R7). -/
abbrev Word := BitVec 32

/-- An 8-bit `scaling` port, two's complement (R32, decision D3). -/
abbrev SclWord := BitVec 8

/-- The operation select port `cmd_op` (R30, R59). -/
abbrev OpWord := BitVec 2

/-- A command word (R57). -/
abbrev CommandWord := BitVec 82

/-- A result word (R58). -/
abbrev ResultWord := BitVec 40

end Sys2Proof
end

