-- ==== Sys2Proof/Config.lean ====
section
/-! DEFINITION. The constants wired into FXP (spec 00_scope.md R5 and R6, 40_bitlayout_helpers.md R70) and the one
parameter the spec leaves open in a way that changes results, TOFIX_SPECIAL (R99, decision D12). They are
definitions, never state (10_state.md R23). -/

namespace Sys2Proof

/-- `MANTISSA_BITS` (R5, R70). -/
def Config.mantissaBits : Int := 23

/-- `EXPONENT_BIAS` (R5, R70). -/
def Config.exponentBias : Int := 127

/-- `SCALING_CAP`: the largest scaling exponent TOFIX chooses (R5, R93). -/
def Config.scalingCap : Int := 30

/-- `VALUE_MAX` = 2^31 - 1 (R5, R28, R70). -/
def Config.valueMax : Int := 2147483647

/-- `VALUE_MIN` = -2^31 (R5, R28, R70). -/
def Config.valueMin : Int := -2147483648

/-- The largest `scaling` an 8-bit port carries (R6 `SCL_W` = 8, R32). -/
def Config.scalingMax : Int := 127

/-- The least `scaling` an 8-bit port carries (R6 `SCL_W` = 8, R32). -/
def Config.scalingMin : Int := -128

/-- `SIGN_MASK` (R51, R70). -/
def Config.signMask : Word := 0x80000000#32

/-- `EXP_MASK` (R51, R70). -/
def Config.expMask : Word := 0x7F800000#32

/-- `MANT_MASK` (R51, R70). -/
def Config.mantMask : Word := 0x007FFFFF#32

/-- `IMPLICIT_BIT` = 2^23 (R51, R70). -/
def Config.implicitBit : Word := 0x00800000#32

/-- The two treatments the spec gives TOFIX of a NaN, an infinity or a subnormal (R99; 93_implementation_defined.md U1). -/
inductive TofixSpecial where
  /-- No detection: R98 is applied unchanged. The spec's default. -/
  | uniformDatapath
  /-- The step terminates and the result is some 40-bit word. -/
  | anyValue
  deriving DecidableEq, Repr

/-- `TOFIX_SPECIAL` at its default, the uniform datapath (R99; 92_eei_decisions.md D12; 93_implementation_defined.md U1).
DESIGN CHOICE, unsafe for a claim about the library the spec was written from (log 3). -/
def Config.tofixSpecial : TofixSpecial := .uniformDatapath

/-- The free value of the setting `anyValue`: nothing constrains it. A function of the operand, so that equal
commands still give equal results (20_memory.md R45 (a)); log 3. -/
opaque Config.tofixSpecialDraw : Word → ResultWord

end Sys2Proof
end

