-- ==== Sys2Proof/Machine/Primitives.lean ====
section
/-! DEFINITION. The pseudocode primitives of spec 00_scope.md R9, on exact integers (R8). -/

namespace Sys2Proof.Machine

/-- `unsigned_N(v)`: `v` mod 2^N as an N-bit pattern (R9). -/
def unsignedN (n : Nat) (v : Int) : BitVec n := BitVec.ofInt n v

/-- `signed_N(u)`: the pattern read as two's complement (R9). -/
def signedN {n : Nat} (u : BitVec n) : Int :=
  if 2 * u.toNat < 2 ^ n then (u.toNat : Int) else (u.toNat : Int) - ((2 ^ n : Nat) : Int)

/-- `shr(v, n)` = floor(v / 2^n), for every `n` (R9, R77): logical for `v ≥ 0`, arithmetic for `v < 0`. -/
def shr (v : Int) (n : Nat) : Int := v / ((2 ^ n : Nat) : Int)

/-- `shl(v, n)` = v × 2^n, exact (R9). -/
def shl (v : Int) (n : Nat) : Int := v * ((2 ^ n : Nat) : Int)

/-- `trunc32(v)`: the low 32 bits of `v`, read as two's complement (R9, R81). -/
def trunc32 (v : Int) : Int := signedN (unsignedN 32 v)

/-- The amount's sign selects the direction: right for a positive amount, left for a negative one, and the
operand unchanged for 0 (R76). No amount is reduced modulo a width (R77). -/
def align (v shift : Int) : Int :=
  if 0 < shift then shr v shift.toNat
  else if shift < 0 then shl v (-shift).toNat
  else v

end Sys2Proof.Machine
end

