-- ==== Sys2Proof/Machine/BitLayout.lean ====
section
/-! DEFINITION. The shared helpers of spec 40_bitlayout_helpers.md: the used-bits and leading-zero counters, the negator,
the magnitude unit and the field assembler. The shifter `align` and the narrowing `trunc32` stand in Primitives. The
source's second helper is lost and nothing needs it (R82). -/

namespace Sys2Proof.Machine

/-- The 1-based position of the highest set bit among the low `n` bits of `u`, 0 if none of them is set. -/
def usedBitsBelow (u : Word) : Nat → Nat
  | 0 => 0
  | n + 1 => if u.getLsbD n then n + 1 else usedBitsBelow u n

/-- `cub32(u)`, the source's `count_used_bits_from_lsb` (R73, R75). -/
def cub32 (u : Word) : Nat := usedBitsBelow u 32

/-- The zero bits of `u` from bit `n - 1` down to the first one. -/
def leadingZerosBelow (u : Word) : Nat → Nat
  | 0 => 0
  | n + 1 => if u.getLsbD n then 0 else leadingZerosBelow u n + 1

/-- `clz32(u)`: the number of leading zero bits (R9, R74). -/
def clz32 (u : Word) : Nat := leadingZerosBelow u 32

/-- `neg(v)` on exact integers (R78). -/
def neg (v : Int) : Int := -v

/-- `mag32(value)`: the magnitude in the unsigned domain, so that -2^31 gives 2^31 (R79, decision D13). -/
def mag32 (value : Int) : Word := unsignedN 32 value.natAbs

/-- `assemble(sign, expfield, mant) = {sign, expfield, mant}` (R80). -/
def assemble (sign : BitVec 1) (expfield : BitVec 8) (mant : BitVec 23) : Word := sign ++ expfield ++ mant

end Sys2Proof.Machine
end

