-- ==== Sys2Proof/Syntax.lean ====
section
/-! DEFINITION. The value type FixedPoint with its constants (spec 10_state.md R27, R28) and the instructions of
spec/opcode_table.json, one constructor a row (30_encoding.md R59, R60). -/

namespace Sys2Proof

/-- FixedPoint (R27): the pair stands for `value / 2^scaling`. Both fields are integers, as in the rules (R8); the
ranges the ports carry are the check of WellFormed. -/
structure FixedPoint where
  /-- A signed 32-bit integer, the raw representation. -/
  value : Int
  /-- The scaling exponent, carried on an 8-bit port (R32). -/
  scaling : Int
  deriving DecidableEq, Repr

/-- `ZERO` (R28). -/
def FixedPoint.zero : FixedPoint := { value := 0, scaling := 0 }

/-- `MAX` (R28). -/
def FixedPoint.max : FixedPoint := { value := Config.valueMax, scaling := 0 }

/-- `MIN` (R28). -/
def FixedPoint.min : FixedPoint := { value := Config.valueMin, scaling := 0 }

/-- The instructions: the rows of the opcode table, with the operands each one reads (R60). A field that an operation
ignores is no operand of it. -/
inductive Instr where
  /-- TOFIX (R90): `x` is a float32 bit pattern. -/
  | tofix (x : Word)
  /-- FROMFIX (R110). -/
  | fromfix (x : FixedPoint)
  /-- MUL (R130): `x` is operand A, the left operand; `y` is operand B. -/
  | mul (x y : FixedPoint)
  /-- The reserved operation `op = 3` (R61). -/
  | reserved
  deriving DecidableEq, Repr

/-- The four values of the operation select (R59). -/
inductive Operation where
  | tofix
  | fromfix
  | mul
  | reserved
  deriving DecidableEq, Repr

/-- Which operation an instruction is. -/
def Instr.operation : Instr → Operation
  | .tofix _ => .tofix
  | .fromfix _ => .fromfix
  | .mul _ _ => .mul
  | .reserved => .reserved

end Sys2Proof
end

