-- ==== Sys2Proof/WellFormed.lean ====
section
/-! DEFINITION. Which instructions a command word can carry: the ranges of the `value` and `scaling` ports
(spec 10_state.md R27, R32; 30_encoding.md R52). -/

namespace Sys2Proof

/-- The `value` fits its 32-bit port (R27, R52). -/
def FixedPoint.valueFits (p : FixedPoint) : Bool :=
  decide (Config.valueMin ≤ p.value) && decide (p.value ≤ Config.valueMax)

/-- The `scaling` fits its 8-bit port (R32). -/
def FixedPoint.scalingFits (p : FixedPoint) : Bool :=
  decide (Config.scalingMin ≤ p.scaling) && decide (p.scaling ≤ Config.scalingMax)

/-- Both fields fit their ports. -/
def FixedPoint.wf (p : FixedPoint) : Bool := p.valueFits && p.scalingFits

/-- An instruction is well formed when every operand fits its port; any 32-bit pattern is a TOFIX operand (R90). -/
def Instr.wf : Instr → Bool
  | .tofix _ => true
  | .fromfix x => x.wf
  | .mul x y => x.wf && y.wf
  | .reserved => true

end Sys2Proof
end

