-- ==== Sys2Proof/Decode.lean ====
section
/-! DEFINITION. The command word (spec 30_encoding.md R57): its fields, the decoder (R59 to R61), the encoder (R65: a
field the operation ignores is written as zero), and the command word an opcode-table number stands for. -/

namespace Sys2Proof

/-- `op` = cmd[81:80] (R57). -/
def opField (c : CommandWord) : OpWord := c.extractLsb' 80 2

/-- `b_scl` = cmd[79:72] (R57). -/
def bSclField (c : CommandWord) : SclWord := c.extractLsb' 72 8

/-- `b_val` = cmd[71:40] (R57). -/
def bValField (c : CommandWord) : Word := c.extractLsb' 40 32

/-- `a_scl` = cmd[39:32] (R57). -/
def aSclField (c : CommandWord) : SclWord := c.extractLsb' 32 8

/-- `a_val` = cmd[31:0] (R57). -/
def aValField (c : CommandWord) : Word := c.extractLsb' 0 32

/-- `cmd = {cmd_op, cmd_b_scl, cmd_b_val, cmd_a_scl, cmd_a_val}` (R57). -/
def commandOf (op : OpWord) (bScl : SclWord) (bVal : Word) (aScl : SclWord) (aVal : Word) : CommandWord :=
  op ++ bScl ++ bVal ++ aScl ++ aVal

/-- A FixedPoint operand from its two port patterns, each read as two's complement (R55, R56). -/
def fixedOperand (val : Word) (scl : SclWord) : FixedPoint :=
  { value := Machine.signedN val, scaling := Machine.signedN scl }

/-- The port pattern of a `value` (R52). -/
def valuePattern (p : FixedPoint) : Word := Machine.unsignedN 32 p.value

/-- The port pattern of a `scaling` (R32). -/
def scalingPattern (p : FixedPoint) : SclWord := Machine.unsignedN 8 p.scaling

/-- The opcode map (R59). -/
def operationOf (op : OpWord) : Operation :=
  match op with
  | 0#2 => .tofix
  | 1#2 => .fromfix
  | 2#2 => .mul
  | 3#2 => .reserved

/-- The number of an operation (R59). -/
def opcode : Operation → OpWord
  | .tofix => 0#2
  | .fromfix => 1#2
  | .mul => 2#2
  | .reserved => 3#2

/-- The decoder: total on the 82-bit words, selecting by `op` alone (R59, R61). -/
def decode (c : CommandWord) : Instr :=
  match operationOf (opField c) with
  | .tofix => .tofix (aValField c)
  | .fromfix => .fromfix (fixedOperand (aValField c) (aSclField c))
  | .mul => .mul (fixedOperand (aValField c) (aSclField c)) (fixedOperand (bValField c) (bSclField c))
  | .reserved => .reserved

/-- The command word of an instruction; ignored fields are zero (R57, R60, R65). -/
def encode : Instr → CommandWord
  | .tofix x => commandOf (opcode .tofix) 0 0 0 x
  | .fromfix x => commandOf (opcode .fromfix) 0 0 (scalingPattern x) (valuePattern x)
  | .mul x y => commandOf (opcode .mul) (scalingPattern y) (valuePattern y) (scalingPattern x) (valuePattern x)
  | .reserved => commandOf (opcode .reserved) 0 0 0 0

/-- Why a number is no command. -/
inductive DecodeError where
  /-- A one stands above bit 81: FXP's commands have 82 bits and no other length (R50, R62). Safe: nothing is decoded. -/
  | tooWide
  deriving DecidableEq, Repr

/-- The command word a number stands for, bit 0 least significant; a number of more than 82 bits is rejected by name (R62). -/
def commandOfNat (w : Nat) : Except DecodeError CommandWord :=
  if w < 2 ^ 82 then .ok (BitVec.ofNat 82 w) else .error .tooWide

/-- The command word of an opcode-table number of `nbits` bits, every higher bit 0. FXP has no byte order (20_memory.md R41), so laying
the bytes out and gathering them again is the identity. -/
def commandOfTableWord (nbits w : Nat) : Except DecodeError CommandWord := commandOfNat (w % 2 ^ nbits)

/-- What the decoder reads from an opcode-table number; `none` where it rejects. -/
def decodeTableWord (nbits w : Nat) : Option Instr :=
  match commandOfTableWord nbits w with
  | .ok c => some (decode c)
  | .error _ => none

end Sys2Proof
end

