-- ==== Sys2Proof/Machine/State.lean ====
section
/-! DEFINITION. The state: FXP's ports and the host's run (spec 10_state.md R30, R31; 70_reset_and_hazards.md R180).
FXP itself keeps nothing between two commands: no register, program counter, flag, control register, memory or
hidden state (R20 to R25), so State has none. -/

namespace Sys2Proof.Machine

/-- The levels on the five input ports (R30). The host drives them. -/
structure Inputs where
  /-- Operation select (R59). -/
  cmdOp : OpWord
  /-- Operand A, 32-bit part. -/
  cmdAVal : Word
  /-- Operand A, `scaling`. -/
  cmdAScl : SclWord
  /-- Operand B, 32-bit part. -/
  cmdBVal : Word
  /-- Operand B, `scaling`. -/
  cmdBScl : SclWord
  deriving DecidableEq, Repr

/-- The levels on the two output ports (R30). -/
structure Outputs where
  /-- Result, 32-bit part. -/
  resVal : Word
  /-- Result `scaling`. -/
  resScl : SclWord
  deriving DecidableEq, Repr

/-- One transaction: a command and the result it got (00_scope.md R12; R31). -/
structure Transaction where
  command : CommandWord
  result : Outputs
  deriving DecidableEq, Repr

/-- What a step reads and writes. -/
structure State where
  /-- The command being presented, as port levels (R30). -/
  inputs : Inputs
  /-- The result ports (R30). -/
  outputs : Outputs
  /-- The host's: the commands it has still to present, in its order (R65, R180; log 2). -/
  pending : List CommandWord
  /-- The host's record of the run, oldest first; its results are the run's observable outcome (R180; log 2). -/
  transactions : List Transaction
  deriving DecidableEq, Repr

/-- Why a step faults: never. FXP raises no exception, for any operation, on any operand (60_exceptions.md R150), and
no open case of the spec is a fault or a stuck state (93_implementation_defined.md), so there is no constructor. -/
inductive Fault where
  deriving DecidableEq, Repr

/-- Why a step gives a command no meaning. -/
inductive Refusal where
  /-- Raised by an arm of `exec` whose instruction has no meaning yet; none is left. Safe: nothing follows from it. -/
  | notModelled (mnemonic : String)
  /-- Raised by RESERVED, `op = 3`: the spec leaves its result unspecified and has the model refuse it
  (30_encoding.md R61, decision D7; log 4). Safe: no claim about such a command can be proved. -/
  | reservedOperation
  deriving DecidableEq, Repr

/-- The machine before any command. FXP has no reset and no state to reset (R33, R170). No command is driven yet, so
the spec gives the ports no level: all low is a DESIGN CHOICE, unsafe (log 1). The output levels are then what `F`
gives for the input levels, as R170 asks at every instant. No run has been given: both lists are empty (log 2). -/
def State.reset : State where
  inputs := { cmdOp := 0, cmdAVal := 0, cmdAScl := 0, cmdBVal := 0, cmdBScl := 0 }
  outputs := { resVal := 0, resScl := 0 }
  pending := []
  transactions := []

end Sys2Proof.Machine
end

