-- ==== Sys2Proof/Machine/Ops.lean ====
section
/-! DEFINITION. The named operations over State: presenting a command, driving the result ports, recording a
transaction (spec 10_state.md R31). There is no memory to read or write (20_memory.md R40) and no exception to take or
return from (60_exceptions.md R150, R156), so neither has an operation. -/

namespace Sys2Proof.Machine

/-- The port levels that carry a command word (R57). -/
def inputsOf (c : CommandWord) : Inputs where
  cmdOp := opField c
  cmdAVal := aValField c
  cmdAScl := aSclField c
  cmdBVal := bValField c
  cmdBScl := bSclField c

/-- The command word the input ports carry (R57). -/
def commandOn (i : Inputs) : CommandWord := commandOf i.cmdOp i.cmdBScl i.cmdBVal i.cmdAScl i.cmdAVal

/-- The result word: `res = {res_scl, res_val}` (R58). -/
def resultWord (o : Outputs) : ResultWord := o.resScl ++ o.resVal

/-- The output levels of a result word (R58). -/
def outputsOf (r : ResultWord) : Outputs where
  resVal := r.extractLsb' 0 32
  resScl := r.extractLsb' 32 8

/-- `result <- (value, scaling)` for a FixedPoint result: `res_val = unsigned_32(value)`, `res_scl = unsigned_8(scaling)`
(R60, R98, R138). -/
def fixedOutputs (p : FixedPoint) : Outputs where
  resVal := valuePattern p
  resScl := scalingPattern p

/-- `result <- (w, 0)` for a float32 result (R60, R110, R118). -/
def floatOutputs (w : Word) : Outputs where
  resVal := w
  resScl := 0

/-- The host takes command `c` off its list, leaving `rest`, and holds it on the input ports (R31, R65). -/
def State.present (s : State) (c : CommandWord) (rest : List CommandWord) : State :=
  { s with inputs := inputsOf c, pending := rest }

/-- The result ports take a value; the only write an operation makes (00_scope.md R10, R31). -/
def State.drive (s : State) (o : Outputs) : State := { s with outputs := o }

/-- The host notes the command it presented and the result it got (R180). -/
def State.record (s : State) (c : CommandWord) : State :=
  { s with transactions := s.transactions ++ [{ command := c, result := s.outputs }] }

/-- The host puts a command in front of its list. -/
def State.enqueueFirst (s : State) (c : CommandWord) : State := { s with pending := c :: s.pending }

/-- A transaction that gave a result is recorded; a stop stays that stop. -/
def completeTransaction (c : CommandWord) (o : Host.Outcome State Fault Refusal) : Host.Outcome State Fault Refusal :=
  match o with
  | .next t => .next (t.record c)
  | .fault r => .fault r
  | .refused r => .refused r

end Sys2Proof.Machine
end

