-- ==== Sys2Proof/Machine/FromFixed.lean ====
section
/-! DEFINITION. FROMFIX, fixed point to float32 (spec 42_from_fixed_point.md R110 to R119). -/

namespace Sys2Proof.Machine

/-- Step 2: the sign bit of a value (R112, decision D21). -/
def signOf (value : Int) : BitVec 1 := if value < 0 then 1 else 0

/-- Step 5: `exp = used_bits - scaling - 1` (R115). -/
def reconstructedExponent (usedBits : Nat) (scaling : Int) : Int := usedBits - scaling - 1

/-- Step 6: `shift = used_bits - 1 - MANTISSA_BITS` (R116). -/
def normalizingShift (usedBits : Nat) : Int := usedBits - 1 - Config.mantissaBits

/-- Step 6: the magnitude with its leading 1 moved to bit 23, low bits discarded (R116). -/
def normalized (mag : Word) : Int := align mag.toNat (normalizingShift (cub32 mag))

/-- Step 6: the mantissa field, masked to 23 bits (R116). -/
def mantissaFieldOf (mag : Word) : BitVec 23 := unsignedN 23 (normalized mag)

/-- Step 7: `expfield = (exp + 127) mod 256`; nothing spills out of the field (R117, R119, decision D14). -/
def exponentFieldOf (exp : Int) : BitVec 8 := unsignedN 8 (exp + Config.exponentBias)

/-- FROMFIX as one function (R118): zero first (60_exceptions.md R154), no range test on the exponent. -/
def fromfix (p : FixedPoint) : Word :=
  if p.value = 0 then 0
  else
    assemble (signOf p.value)
      (exponentFieldOf (reconstructedExponent (cub32 (mag32 p.value)) p.scaling))
      (mantissaFieldOf (mag32 p.value))

/-- What FROMFIX drives: the float32 pattern, and 0 on `res_scl` (R110, decision D15). -/
def fromfixOutputs (p : FixedPoint) : Outputs := floatOutputs (fromfix p)

/-- FROMFIX (R110, R118). -/
def execFromfix (x : FixedPoint) (s : State) : Host.Outcome State Fault Refusal :=
  .next (s.drive (fromfixOutputs x))

end Sys2Proof.Machine
end

