-- ==== Sys2Proof/Machine/Multiply.lean ====
section
/-! DEFINITION. MUL, fixed-point multiply with shift alignment (spec 43_multiply.md R130 to R138). There is no divide (R141). -/

namespace Sys2Proof.Machine

/-- Step 1: the exact product; it fits a signed 64-bit word for operands that fit their ports (R131, `PROD_W` = 64). -/
def wideProduct (x y : FixedPoint) : Int := x.value * y.value

/-- Step 2: `s = x.scaling + y.scaling`, exact (R132). -/
def mulShift (x y : FixedPoint) : Int := x.scaling + y.scaling

/-- Step 3: arithmetic right shift for `s ≥ 0` (R133, decision D17), left shift by `-s` for `s < 0` (R134, decision D19).
Sys2Proof/Safety.lean marks a negative amount, or one of 64 and above, as outside the contract of the caller. -/
def shiftedProduct (p s : Int) : Int := if 0 ≤ s then shr p s.toNat else shl p (-s).toNat

/-- MUL as one function (R138): the low 32 bits, no saturation (R135, R136), the left operand's scaling (R137). -/
def mul (x y : FixedPoint) : FixedPoint where
  value := trunc32 (shiftedProduct (wideProduct x y) (mulShift x y))
  scaling := x.scaling

/-- What MUL drives (R130). -/
def mulOutputs (x y : FixedPoint) : Outputs := fixedOutputs (mul x y)

/-- MUL (R130, R138). -/
def execMul (x y : FixedPoint) (s : State) : Host.Outcome State Fault Refusal := .next (s.drive (mulOutputs x y))

end Sys2Proof.Machine
end

