-- ==== Sys2Proof/Machine/Reserved.lean ====
section
/-! DEFINITION. The reserved operation, `op = 3` (spec 30_encoding.md R61). -/

namespace Sys2Proof.Machine

/-- RESERVED: the result is unspecified and the model refuses the command (R61, decision D7) under this name (log 4). It is not divide (43_multiply.md R141). -/
def execReserved (_s : State) : Host.Outcome State Fault Refusal := .refused .reservedOperation

end Sys2Proof.Machine
end

