-- ==== Sys2Proof/Machine/Operands.lean ====
section
/-! DEFINITION. The float32 operand: its fields, FloatBits and the field decoder (spec 10_state.md R26; 30_encoding.md R51, R53,
R54; 40_bitlayout_helpers.md R71), and the classes of float32 patterns (00_scope.md R11). The FixedPoint operand forms
(R55, R56) stand in Sys2Proof/Decode.lean as `fixedOperand`. -/

namespace Sys2Proof.Machine

/-- `S = b[31]` (R53). -/
def signField (b : Word) : BitVec 1 := b.extractLsb' 31 1

/-- `E = b[30:23]` (R53). -/
def expField (b : Word) : BitVec 8 := b.extractLsb' 23 8

/-- `F = b[22:0]` (R53). -/
def mantField (b : Word) : BitVec 23 := b.extractLsb' 0 23

/-- FloatBits (R26): transient, consumed in the transaction that produced it. -/
structure FloatBits where
  /-- 1 means negative. -/
  sign : BitVec 1
  /-- Already de-biased. -/
  exponent : Int
  /-- With the implicit leading 1. -/
  mantissa : BitVec 24
  deriving DecidableEq, Repr

/-- `decompose(b)`: no case distinction, the implicit bit is OR'd in whatever `E` is (R54, R71). -/
def decompose (b : Word) : FloatBits where
  sign := signField b
  exponent := (expField b).toNat - Config.exponentBias
  mantissa := (mantField b).setWidth 24 ||| Config.implicitBit.setWidth 24

/-- The names of float32 patterns (R11, 93_implementation_defined.md G2). -/
inductive FloatClass where
  | zero
  | subnormal
  | normal
  | infinity
  | nan
  deriving DecidableEq, Repr

/-- Which class a pattern is in (R11). -/
def floatClass (b : Word) : FloatClass :=
  if expField b = 0 then (if mantField b = 0 then .zero else .subnormal)
  else if expField b = 255 then (if mantField b = 0 then .infinity else .nan)
  else .normal

/-- A pattern for which the source leaves TOFIX unspecified: NaN, infinity or subnormal (R99). -/
def isSpecial (b : Word) : Bool :=
  match floatClass b with
  | .zero => false
  | .normal => false
  | .subnormal => true
  | .infinity => true
  | .nan => true

end Sys2Proof.Machine
end

