-- ==== Sys2Proof/Machine/ToFixed.lean ====
section
/-! DEFINITION. TOFIX, float32 to fixed point (spec 41_to_fixed_point.md R90 to R99). -/

namespace Sys2Proof.Machine

/-- Step 1: `x[30:0] == 0`, the sign bit not looked at (R91, decision D10). -/
def isZeroFloat (x : Word) : Bool := x.extractLsb' 0 31 == 0

/-- Step 3: `scaling = min(30 - exponent, 30)` (R93). -/
def chooseScaling (exponent : Int) : Int := min (Config.scalingCap - exponent) Config.scalingCap

/-- Step 4: MIN if the sign is set, else MAX (R94). -/
def saturate (sign : BitVec 1) : FixedPoint := if sign = 1 then FixedPoint.min else FixedPoint.max

/-- Step 5: `shift = MANTISSA_BITS - exponent - scaling` (R95). -/
def tofixShift (exponent scaling : Int) : Int := Config.mantissaBits - exponent - scaling

/-- Step 7: negate if the sign is set (R97). -/
def applySign (sign : BitVec 1) (m : Int) : Int := if sign = 1 then neg m else m

/-- Steps 3 to 7 on the decoded fields. -/
def tofixBits (f : FloatBits) : FixedPoint :=
  if chooseScaling f.exponent < 0 then saturate f.sign
  else
    { value := applySign f.sign (align f.mantissa.toNat (tofixShift f.exponent (chooseScaling f.exponent)))
      scaling := chooseScaling f.exponent }

/-- TOFIX as one function (R98): zero first, then saturation, then the shift (60_exceptions.md R153). A zero `value`
that truncation leaves keeps its scaling (decision D24). -/
def tofix (x : Word) : FixedPoint := if isZeroFloat x then FixedPoint.zero else tofixBits (decompose x)

/-- What TOFIX drives, under either setting of TOFIX_SPECIAL (R98, R99; 93_implementation_defined.md U1). -/
def tofixOutputs (setting : TofixSpecial) (x : Word) : Outputs :=
  match setting with
  | .uniformDatapath => fixedOutputs (tofix x)
  | .anyValue => if isSpecial x then outputsOf (Config.tofixSpecialDraw x) else fixedOutputs (tofix x)

/-- TOFIX (R90, R98). -/
def execTofix (x : Word) (s : State) : Host.Outcome State Fault Refusal :=
  .next (s.drive (tofixOutputs Config.tofixSpecial x))

end Sys2Proof.Machine
end

