-- ==== Sys2Proof/Machine/Dispatch.lean ====
section
/-! DEFINITION. One arm per instruction of the opcode table (spec 30_encoding.md R59). -/

namespace Sys2Proof.Machine

/-- The meaning of an instruction on a state. -/
def exec (i : Instr) (s : State) : Host.Outcome State Fault Refusal :=
  match i with
  | .tofix x => Sys2Proof.Machine.execTofix x s
  | .fromfix x => Sys2Proof.Machine.execFromfix x s
  | .mul x y => Sys2Proof.Machine.execMul x y s
  | .reserved => Sys2Proof.Machine.execReserved s

end Sys2Proof.Machine
end

