-- ==== Sys2Proof/Machine/Step.lean ====
section
/-! DEFINITION. One step: one transaction of the host's run (spec 10_state.md R31; 70_reset_and_hazards.md R180). -/

namespace Sys2Proof.Machine

/-- The host presents the next command of its list on the input ports, the block's operation drives the result ports,
and the host records the pair. With no command left the run is over and nothing is pending (R180): the ports hold
their levels (log 2). -/
def step (s : State) : Host.Outcome State Fault Refusal :=
  match s.pending with
  | [] => .next s
  | c :: rest => completeTransaction c (exec (decode c) (s.present c rest))

/-- `s` with the command an opcode-table number stands for put where the next step takes its command; unchanged where the
number is no command word. -/
def State.withFetchWord (s : State) (nbits w : Nat) : State :=
  match commandOfTableWord nbits w with
  | .ok c => s.enqueueFirst c
  | .error _ => s

end Sys2Proof.Machine
end

