-- ==== Sys2Proof/Machine/Flags.lean ====
section
/-! DEFINITION. FXP has no flag: no operation sets one, sticky or otherwise (spec 10_state.md R22). What stands here is the
comparison R22 gives a host that wants to know whether TOFIX saturated. -/

namespace Sys2Proof.Machine

/-- The host's own saturation test on a TOFIX result: its `value` is that of MAX or of MIN (R22, R100 item f). -/
def showsSaturation (p : FixedPoint) : Bool :=
  decide (p.value = FixedPoint.max.value) || decide (p.value = FixedPoint.min.value)

end Sys2Proof.Machine
end

