-- ==== Sys2Proof/Machine/Readings.lean ====
section
/-! DEFINITION. The real numbers that FixedPoints and normal float32 patterns stand for (spec 00_scope.md R11). Used only to
state properties; the machine never computes them. -/

namespace Sys2Proof.Machine

/-- `real_fx(value, scaling) = value / 2^scaling` (R11 (a), R27). -/
def realFx (p : FixedPoint) : ℚ := (p.value : ℚ) / (2 : ℚ) ^ p.scaling

/-- `real_f32(b) = (-1)^b[31] × (2^23 + b[22:0]) × 2^(E - 127 - 23)`, for a normal pattern (R11 (b); from general
knowledge, 93_implementation_defined.md G1; log 10). -/
def realF32 (b : Word) : ℚ :=
  (-1 : ℚ) ^ (signField b).toNat * ((2 : ℚ) ^ 23 + ((mantField b).toNat : ℚ))
    * (2 : ℚ) ^ (((expField b).toNat : Int) - 127 - 23)

end Sys2Proof.Machine
end

