-- ==== Sys2Proof/Machine/Block.lean ====
section
/-! DEFINITION. The function `F` of spec 10_state.md R31: what the output ports carry for a command. -/

namespace Sys2Proof.Machine

/-- The result of an instruction, `none` for the reserved operation, whose result is unspecified (R61). -/
def resultOf : Instr → Option Outputs
  | .tofix x => some (tofixOutputs Config.tofixSpecial x)
  | .fromfix x => some (fromfixOutputs x)
  | .mul x y => some (mulOutputs x y)
  | .reserved => none

/-- `F`: it reads nothing but the command and gives nothing but the two outputs (R31). -/
def blockFunction (c : CommandWord) : Option Outputs := resultOf (decode c)

end Sys2Proof.Machine
end

