-- ==== Sys2Proof/Safety.lean ====
section
/-! DEFINITION. The terms claims use: what a caller must respect (spec 70_reset_and_hazards.md R172 to R175; 92_eei_decisions.md D19), which FixedPoints
a run can produce (10_state.md R29), and the invariants of a run (R31, R170, R180). -/

namespace Sys2Proof.Safety

open Sys2Proof.Machine

/-- R172: present only zero or a normal finite pattern to TOFIX. -/
def tofixContract (x : Word) : Bool := !isSpecial x

/-- R175: the reconstructed exponent of a nonzero FROMFIX operand fits a normal float32. -/
def fromfixContract (p : FixedPoint) : Bool :=
  decide (p.value = 0) ||
    (decide ((cub32 (mag32 p.value) : Int) - 128 ≤ p.scaling) && decide (p.scaling ≤ (cub32 (mag32 p.value) : Int) + 125))

/-- MUL's shift amount is one the source considers, 0 to 63: the spec's decision on a negative amount or one of 64 and above
(R133, R134) marks those operands as outside the contract (92_eei_decisions.md D19; 93_implementation_defined.md U5). -/
def mulContract (x y : FixedPoint) : Bool := decide (0 ≤ mulShift x y) && decide (mulShift x y ≤ 63)

/-- R173: two results may be compared by their `value` only at equal `scaling`. -/
def comparable (p q : FixedPoint) : Bool := decide (p.scaling = q.scaling)

/-- The caller's contract for one command (R172, R175, D19); the reserved operation is no operation to ask for
(R61). The hardware checks none of it: MUL accepts every operand (R130). -/
def callerRespects : Instr → Bool
  | .tofix x => tofixContract x
  | .fromfix x => fromfixContract x
  | .mul x y => mulContract x y
  | .reserved => false

/-- Lifecycle-reachable (R12, R29): a result of TOFIX on any input, or of MUL on lifecycle-reachable operands. -/
inductive LifecycleReachable : FixedPoint → Prop where
  | ofTofix (x : Word) : LifecycleReachable (tofix x)
  | ofMul (x y : FixedPoint) : LifecycleReachable x → LifecycleReachable y → LifecycleReachable (mul x y)

/-- The result ports carry `F` of the command on the input ports (R31, R170). -/
def OutputsFollowInputs (s : State) : Prop := blockFunction (commandOn s.inputs) = some s.outputs

/-- Every recorded result is `F` of its own command alone (R180). -/
def RecordFollowsF (s : State) : Prop := ∀ t ∈ s.transactions, blockFunction t.command = some t.result

/-- The ports agree with the record of the run: the last recorded transaction, where there is one, is the one on the ports. The
model's choice, no rule's: R180 does not say what the host holds after its last command (log 2). -/
def PortsShowLast (s : State) : Prop :=
  ∀ t, s.transactions.getLast? = some t → commandOn s.inputs = t.command ∧ s.outputs = t.result

/-- What holds throughout a run. -/
structure RunInvariant (s : State) : Prop where
  outputs : OutputsFollowInputs s
  record : RecordFollowsF s
  ports : PortsShowLast s

end Sys2Proof.Safety
end

