-- ==== Sys2Proof/Certificates/Slice0/Obligations.lean ====
section
/-! DEFINITION. The statements for the provers, from the numbered rules of spec/. The spec's own decisions (92_eei_decisions.md)
are part of its rules; where a statement rests on a choice of this model, its docstring names the log entry, and where
the spec marks a rule or a clause of it as derived, the docstring says so. -/

open Sys2Proof Sys2Proof.Machine Sys2Proof.Safety

/-! ### Encoding -/

/-- Decoding the command word of a well-formed instruction gives that instruction back, for every row of the table
(30_encoding.md, sections 2 to 4). -/
def Obligations.DecodeInvertsEncode : Prop := ∀ i : Instr, i.wf = true → decode (encode i) = i

/-- Encoding a decoded command keeps every bit the operation reads, and `op`, and clears every field it ignores
(30_encoding.md R60's table and the zero rule of R65). -/
def Obligations.EncodeOfDecodeClearsIgnoredFields : Prop :=
  ∀ c : CommandWord, encode (decode c) =
    c &&& (match (decode c).operation with
      | .tofix => 0x3000000000000FFFFFFFF#82
      | .fromfix => 0x30000000000FFFFFFFFFF#82
      | .mul => 0x3FFFFFFFFFFFFFFFFFFFF#82
      | .reserved => 0x300000000000000000000#82)

/-- R59: the operation is `op = cmd[81:80]`, numbered as in the map, which is the mask and match of the table; no other
bit takes part. -/
def Obligations.OperationIsSelectedByOpAlone : Prop :=
  (∀ c : CommandWord,
    ((decode c).operation = .tofix ↔ opField c = 0) ∧ ((decode c).operation = .fromfix ↔ opField c = 1) ∧
    ((decode c).operation = .mul ↔ opField c = 2) ∧ ((decode c).operation = .reserved ↔ opField c = 3) ∧
    (opField c = 0 ↔ c &&& 0x300000000000000000000#82 = 0x000000000000000000000#82) ∧
    (opField c = 1 ↔ c &&& 0x300000000000000000000#82 = 0x100000000000000000000#82) ∧
    (opField c = 2 ↔ c &&& 0x300000000000000000000#82 = 0x200000000000000000000#82) ∧
    (opField c = 3 ↔ c &&& 0x300000000000000000000#82 = 0x300000000000000000000#82)) ∧
  ∀ c d : CommandWord, opField c = opField d → (decode c).operation = (decode d).operation

/-- R57: the command word is the five input ports side by side, in the stated order and widths, and carries the same
information as the ports. -/
def Obligations.CommandWordPacksTheInputPorts : Prop :=
  (∀ i : Inputs, (commandOn i).toNat = i.cmdOp.toNat * 2 ^ 80 + i.cmdBScl.toNat * 2 ^ 72 + i.cmdBVal.toNat * 2 ^ 40
      + i.cmdAScl.toNat * 2 ^ 32 + i.cmdAVal.toNat) ∧
  (∀ i : Inputs, inputsOf (commandOn i) = i) ∧ ∀ c : CommandWord, commandOn (inputsOf c) = c

/-- R58: the result word is `{res_scl, res_val}`, and carries the same information as the two ports. -/
def Obligations.ResultWordPacksTheOutputPorts : Prop :=
  (∀ o : Outputs, (resultWord o).toNat = o.resScl.toNat * 2 ^ 32 + o.resVal.toNat) ∧
  (∀ o : Outputs, outputsOf (resultWord o) = o) ∧ ∀ r : ResultWord, resultWord (outputsOf r) = r

/-- R60: which fields each operation reads and what it returns. The function of the block on a command with arbitrary
ignored fields is a function of the read fields alone. -/
def Obligations.IgnoredFieldsDoNotAffectTheResult : Prop :=
  (∀ (bScl : SclWord) (bVal : Word) (aScl : SclWord) (x : Word),
    blockFunction (commandOf 0 bScl bVal aScl x) = some (tofixOutputs Config.tofixSpecial x) ∧
    (tofixContract x = true → tofixOutputs Config.tofixSpecial x = fixedOutputs (tofix x)) ∧
    (scalingPattern (tofix x)).toNat ≤ 30) ∧
  (∀ (bScl : SclWord) (bVal : Word) (aScl : SclWord) (aVal : Word),
    blockFunction (commandOf 1 bScl bVal aScl aVal) = some { resVal := fromfix (fixedOperand aVal aScl), resScl := 0 }) ∧
  ∀ (bScl : SclWord) (bVal : Word) (aScl : SclWord) (aVal : Word),
    blockFunction (commandOf 2 bScl bVal aScl aVal) =
      some { resVal := valuePattern (mul (fixedOperand aVal aScl) (fixedOperand bVal bScl)), resScl := aScl }

/-- R55, R56: a `value` port is read as a signed 32-bit integer and a `scaling` port as a signed 8-bit integer; every
decoded operand then fits its port (R27, R32). -/
def Obligations.DecodedOperandsFitTheirPorts : Prop :=
  (∀ (val : Word) (scl : SclWord), fixedOperand val scl = { value := val.toInt, scaling := scl.toInt }) ∧
  ∀ c : CommandWord, (decode c).wf = true

/-- The command words printed in 95_test_vectors.md section 2.5, one of them with every ignored bit set, decode to the
instructions printed beside them. -/
def Obligations.PrintedCommandWordsDecode : Prop :=
  decodeTableWord 88 0x000000000000041780000 = some (.tofix 0x41780000) ∧
  decodeTableWord 88 0x0FFFFFFFFFFFF41780000 = some (.tofix 0x41780000) ∧
  decodeTableWord 88 0x100000000001B7C000000 = some (.fromfix { value := 2080374784, scaling := 27 }) ∧
  decodeTableWord 88 0x155DEADBEEF1B7C000000 = some (.fromfix { value := 2080374784, scaling := 27 }) ∧
  decodeTableWord 88 0x21D400000001B7C000000 =
    some (.mul { value := 2080374784, scaling := 27 } { value := 1073741824, scaling := 29 }) ∧
  decodeTableWord 88 0x300000000000041780000 = some .reserved

/-! ### Fields and helpers -/

/-- R53: the three fields of a float32 word are those the masks cut out, and together they are the whole word. -/
def Obligations.FieldsAreCutByTheMasks : Prop :=
  ∀ b : Word,
    (signField b).setWidth 32 = (b &&& Config.signMask) >>> 31 ∧
    (expField b).setWidth 32 = (b &&& Config.expMask) >>> 23 ∧
    (mantField b).setWidth 32 = b &&& Config.mantMask ∧
    signField b ++ expField b ++ mantField b = b

/-- R71 and the ranges and injectivity of R72 (which the spec marks "derived: from rule R71"). -/
def Obligations.DecomposeIsExactAndInjective : Prop :=
  (∀ b : Word,
    ((decompose b).sign = 1 ↔ 2 ^ 31 ≤ b.toNat) ∧
    (decompose b).exponent = ((b.toNat / 2 ^ 23 % 2 ^ 8 : Nat) : Int) - 127 ∧
    (decompose b).mantissa.toNat = b.toNat % 2 ^ 23 + 2 ^ 23 ∧
    -127 ≤ (decompose b).exponent ∧ (decompose b).exponent ≤ 128 ∧
    (floatClass b = .normal → -126 ≤ (decompose b).exponent ∧ (decompose b).exponent ≤ 127)) ∧
  ∀ b c : Word, decompose b = decompose c → b = c

/-- R73: `cub32` is the 1-based position of the highest set bit, 0 for 0, and the number of bits needed; with the values it lists. -/
def Obligations.UsedBitsIsThePositionOfTheHighestBit : Prop :=
  (cub32 0 = 0 ∧ cub32 1 = 1 ∧ cub32 2 = 2 ∧ cub32 3 = 2 ∧ cub32 0x00800000 = 24 ∧ cub32 0x00FFFFFF = 24 ∧
    cub32 0x01000000 = 25 ∧ cub32 0x7FFFFFFF = 31 ∧ cub32 0x80000000 = 32 ∧ cub32 0xFFFFFFFF = 32) ∧
  ∀ u : Word, u ≠ 0 →
    1 ≤ cub32 u ∧ cub32 u ≤ 32 ∧ u.getLsbD (cub32 u - 1) = true ∧ (∀ i, cub32 u ≤ i → u.getLsbD i = false) ∧
    2 ^ (cub32 u - 1) ≤ u.toNat ∧ u.toNat < 2 ^ cub32 u

/-- R74 (the spec marks the identity "derived: from rule R73"): the leading-zero counter is the used-bits counter read
the other way. -/
def Obligations.LeadingZerosComplementUsedBits : Prop := ∀ u : Word, (clz32 u : Int) = 32 - cub32 u

/-- R76: the sign of the amount selects the direction. With it R77's reading: no amount wraps, and an over-wide right
shift gives 0. -/
def Obligations.AlignShiftsBySignOfAmount : Prop :=
  ∀ (v : Int) (n : Nat), 0 ≤ v →
    align v n = v / 2 ^ n ∧ align v (-n) = v * 2 ^ n ∧ align v 0 = v ∧ (v < 2 ^ n → align v n = 0)

/-- R79: the magnitude of an s32 is exact as a u32, and is the pattern itself or the pattern of the negative. -/
def Obligations.MagnitudeIsExactInTheUnsignedDomain : Prop :=
  ∀ v : Int, -2 ^ 31 ≤ v → v ≤ 2 ^ 31 - 1 →
    ((mag32 v).toNat : Int) = |v| ∧
    (0 ≤ v → mag32 v = unsignedN 32 v) ∧ (v < 0 → mag32 v = unsignedN 32 (-v)) ∧ mag32 (-2 ^ 31) = 0x80000000#32

/-- R80: the assembled word is the sum of the three fields in place; OR gives the same word. -/
def Obligations.AssembledWordIsTheSumOfItsFields : Prop :=
  ∀ (sign : BitVec 1) (expfield : BitVec 8) (mant : BitVec 23),
    (assemble sign expfield mant).toNat = sign.toNat * 2 ^ 31 + expfield.toNat * 2 ^ 23 + mant.toNat ∧
    assemble sign expfield mant = sign.setWidth 32 <<< 31 ||| expfield.setWidth 32 <<< 23 ||| mant.setWidth 32

/-- R81: the low 32 bits read as two's complement: the identity on s32, wrapping otherwise. -/
def Obligations.NarrowingKeepsTheLow32Bits : Prop :=
  ∀ v : Int, trunc32 v = (v + 2 ^ 31) % 2 ^ 32 - 2 ^ 31 ∧ (-2 ^ 31 ≤ v → v ≤ 2 ^ 31 - 1 → trunc32 v = v)

/-! ### TOFIX -/

/-- R98, the whole pseudocode, with the fields cut by the masks of R53: `tofix` is this function on every pattern, and on an
operand inside the caller's contract (R172: zero or normal finite) TOFIX completes with it. On a NaN, an infinity or a
subnormal TOFIX completes as TofixOfASpecialPatternUsesTheUniformDatapath says. -/
def Obligations.TofixFollowsItsPseudocode : Prop :=
  ∀ x : Word,
    let negative : Prop := x &&& 0x80000000#32 ≠ 0
    let exponent : Int := (((x &&& 0x7F800000#32) >>> 23).toNat : Int) - 127
    let mantissa : Nat := ((x &&& 0x007FFFFF#32) ||| 0x00800000#32).toNat
    let scaling : Int := min (30 - exponent) 30
    let shift : Int := 23 - exponent - scaling
    let m : Nat := if 0 < shift then mantissa / 2 ^ shift.toNat else mantissa * 2 ^ (-shift).toNat
    (x &&& 0x7FFFFFFF#32 = 0 → tofix x = { value := 0, scaling := 0 }) ∧
    (x &&& 0x7FFFFFFF#32 ≠ 0 → scaling < 0 → negative → tofix x = { value := -2147483648, scaling := 0 }) ∧
    (x &&& 0x7FFFFFFF#32 ≠ 0 → scaling < 0 → ¬ negative → tofix x = { value := 2147483647, scaling := 0 }) ∧
    (x &&& 0x7FFFFFFF#32 ≠ 0 → 0 ≤ scaling → negative → tofix x = { value := -m, scaling := scaling }) ∧
    (x &&& 0x7FFFFFFF#32 ≠ 0 → 0 ≤ scaling → ¬ negative → tofix x = { value := m, scaling := scaling }) ∧
    (tofixContract x = true → ∀ s : State, exec (.tofix x) s =
      .next { s with outputs := { resVal := BitVec.ofInt 32 (tofix x).value, resScl := BitVec.ofInt 8 (tofix x).scaling } })

/-- R91: exactly the two zero patterns take the zero path, and both give ZERO. -/
def Obligations.TofixOfAZeroPatternIsZERO : Prop :=
  (∀ x : Word, isZeroFloat x = true ↔ x = 0x00000000#32 ∨ x = 0x80000000#32) ∧
  ∀ (x : Word) (s : State), x = 0x00000000#32 ∨ x = 0x80000000#32 →
    exec (.tofix x) s = .next { s with outputs := fixedOutputs FixedPoint.zero }

/-- R94: where the chosen scaling is negative the result is MIN if the sign is set, else MAX, whatever the mantissa; the
returned scaling is 0, not the negative number that was computed. On an operand inside the caller's contract (R172) TOFIX
completes with it. -/
def Obligations.TofixSaturatesByTheSign : Prop :=
  ∀ x : Word, chooseScaling (decompose x).exponent < 0 →
    (signField x = 1 → tofix x = FixedPoint.min) ∧ (signField x = 0 → tofix x = FixedPoint.max) ∧
    (tofixContract x = true → ∀ s : State,
      (signField x = 1 → exec (.tofix x) s = .next { s with outputs := { resVal := 0x80000000#32, resScl := 0 } }) ∧
      (signField x = 0 → exec (.tofix x) s = .next { s with outputs := { resVal := 0x7FFFFFFF#32, resScl := 0 } }))

/-- The threshold R94 marks "derived: from rule R93": a negative scaling is chosen exactly when the exponent is at least 31,
that is `E ≥ 158`, that is `|x| ≥ 2^31` for a normal operand. -/
def Obligations.SaturationThresholdIsTwoToThe31 : Prop :=
  ∀ x : Word,
    (chooseScaling (decompose x).exponent < 0 ↔ 31 ≤ (decompose x).exponent) ∧
    (31 ≤ (decompose x).exponent ↔ 158 ≤ (expField x).toNat) ∧
    (floatClass x = .normal → (31 ≤ (decompose x).exponent ↔ (2 : ℚ) ^ 31 ≤ |realF32 x|))

/-- R100 item f, and the exact host test of R22: the values of MAX and MIN come from the saturation path and no other.
The spec marks R100 "derived: from rule R98". -/
def Obligations.SaturationIsVisibleInTheValue : Prop :=
  ∀ x : Word, showsSaturation (tofix x) = true ↔ 158 ≤ (expField x).toNat

/-- R100 items a and b (derived from R98 by the spec): for a normal operand with de-biased exponent -7 to 30 the conversion is exact. -/
def Obligations.TofixIsExactFromTwoToTheMinus7 : Prop :=
  ∀ x : Word, floatClass x = .normal → -7 ≤ (decompose x).exponent → (decompose x).exponent ≤ 30 →
    realFx (tofix x) = realF32 x ∧
    (0 ≤ (decompose x).exponent → |(tofix x).value| = (decompose x).mantissa.toNat * 128 ∧
      (tofix x).scaling = 30 - (decompose x).exponent) ∧
    ((decompose x).exponent < 0 →
      |(tofix x).value| = (decompose x).mantissa.toNat * 2 ^ (7 + (decompose x).exponent).toNat ∧ (tofix x).scaling = 30)

/-- R100 item c (derived from R98 by the spec): below 2^-7 the magnitude is truncated toward zero by less than 2^-30. -/
def Obligations.TofixTruncatesTheMagnitudeTowardZero : Prop :=
  ∀ x : Word, floatClass x = .normal → -30 ≤ (decompose x).exponent → (decompose x).exponent ≤ -8 →
    |(tofix x).value| = ((decompose x).mantissa.toNat / 2 ^ (-7 - (decompose x).exponent).toNat : Nat) ∧
    (tofix x).scaling = 30 ∧ 1 ≤ |(tofix x).value| ∧
    0 ≤ |realF32 x| - |realFx (tofix x)| ∧ |realF32 x| - |realFx (tofix x)| < (2 : ℚ) ^ (-30 : Int)

/-- R100 item d (derived from R98 by the spec): a normal operand below 2^-30 gives (0, 30), which is not ZERO, and FROMFIX of
that is +0.0. -/
def Obligations.TofixUnderflowsToZeroAtScaling30 : Prop :=
  ∀ x : Word, floatClass x = .normal → (decompose x).exponent ≤ -31 →
    tofix x = { value := 0, scaling := 30 } ∧ tofix x ≠ FixedPoint.zero ∧ fromfix (tofix x) = 0

/-- R100 item g (derived from R98 by the spec): flipping the sign bit negates the value and keeps the scaling off the
saturation path, and misses by one on it. -/
def Obligations.TofixIsSignSymmetric : Prop :=
  ∀ x : Word,
    ((expField x).toNat < 158 → tofix (x ^^^ 0x80000000#32) = { tofix x with value := -(tofix x).value }) ∧
    (158 ≤ (expField x).toNat → (tofix (x ^^^ 0x80000000#32)).value = -(tofix x).value - 1 ∧
      (tofix (x ^^^ 0x80000000#32)).scaling = (tofix x).scaling)

/-- R100 item h (derived from R98 by the spec): a TOFIX result fits its ports, with scaling 0 to 30, and off the saturation
path its magnitude leaves the low seven bits of MAX free (R96). -/
def Obligations.TofixResultsFitTheirPorts : Prop :=
  ∀ x : Word, (tofix x).wf = true ∧ 0 ≤ (tofix x).scaling ∧ (tofix x).scaling ≤ 30 ∧
    ((expField x).toNat < 158 → |(tofix x).value| ≤ 2 ^ 31 - 128)

/-- R99's results for NaN, infinity and subnormal patterns. MODEL'S CHOICE (log 3): TOFIX_SPECIAL at the spec's default
"uniform datapath" (decision D12); the source guarantees none of them. -/
def Obligations.TofixOfASpecialPatternUsesTheUniformDatapath : Prop :=
  ∀ (x : Word) (s : State),
    (expField x = 255 → signField x = 0 → exec (.tofix x) s = .next { s with outputs := fixedOutputs FixedPoint.max }) ∧
    (expField x = 255 → signField x = 1 → exec (.tofix x) s = .next { s with outputs := fixedOutputs FixedPoint.min }) ∧
    (floatClass x = .subnormal →
      exec (.tofix x) s = .next { s with outputs := fixedOutputs { value := 0, scaling := 30 } })

/-- For zero and normal finite operands, the only ones the caller's contract allows (R172), the result does not depend on
TOFIX_SPECIAL nor on the free value behind it (93_implementation_defined.md U1). -/
def Obligations.TofixSettingIsInvisibleWithinTheContract : Prop :=
  ∀ (setting : TofixSpecial) (x : Word), tofixContract x = true →
    tofixOutputs setting x = tofixOutputs .uniformDatapath x ∧
    (floatClass x = .zero ∨ 1 ≤ (expField x).toNat ∧ (expField x).toNat ≤ 254)

/-! ### FROMFIX -/

/-- R118, the whole pseudocode, in integer arithmetic. FROMFIX completes on every operand that fits its ports. -/
def Obligations.FromfixFollowsItsPseudocode : Prop :=
  ∀ (p : FixedPoint) (s : State), p.wf = true →
    let sign : Nat := if p.value < 0 then 1 else 0
    let mag : Nat := p.value.natAbs
    let usedBits : Nat := cub32 (BitVec.ofNat 32 mag)
    let exp : Int := usedBits - p.scaling - 1
    let shift : Int := usedBits - 24
    let a : Nat := if 0 < shift then mag / 2 ^ shift.toNat else mag * 2 ^ (-shift).toNat
    let expfield : Nat := ((exp + 127) % 256).toNat
    ∃ t : State, exec (.fromfix p) s = .next t ∧
      (p.value = 0 → t = { s with outputs := { resVal := 0x00000000#32, resScl := 0 } }) ∧
      (p.value ≠ 0 → 2 ^ 23 ≤ a ∧ a < 2 ^ 24 ∧
        t = { s with outputs := { resVal := BitVec.ofNat 32 (sign * 2 ^ 31 + expfield * 2 ^ 23 + a % 2 ^ 23), resScl := 0 } })

/-- R111: a zero value gives +0.0 whatever its scaling is. -/
def Obligations.FromfixOfZeroIsPositiveZero : Prop :=
  ∀ (scaling : Int) (s : State),
    exec (.fromfix { value := 0, scaling := scaling }) s = .next { s with outputs := { resVal := 0x00000000#32, resScl := 0 } }

/-- R116's range (marked by the spec "derived: from" R73): the normalizing shift moves the leading 1 to bit 23, so the mask
removes exactly the implicit bit. -/
def Obligations.NormalizationPutsTheLeadingOneAtBit23 : Prop :=
  ∀ mag : Word, mag ≠ 0 →
    2 ^ 23 ≤ normalized mag ∧ normalized mag < 2 ^ 24 ∧ ((mantissaFieldOf mag).toNat : Int) = normalized mag - 2 ^ 23

/-- R120 item a (derived by the spec from R118): within the exponent bound of R175, FROMFIX is exact up to 24 used bits, and
above them it is the value with its low `used_bits - 24` magnitude bits cleared. -/
def Obligations.FromfixIsExactUpTo24UsedBits : Prop :=
  ∀ p : FixedPoint, p.wf = true → p.value ≠ 0 → fromfixContract p = true →
    floatClass (fromfix p) = .normal ∧
    (cub32 (mag32 p.value) ≤ 24 → realF32 (fromfix p) = realFx p) ∧
    (24 < cub32 (mag32 p.value) →
      realF32 (fromfix p) = realFx { p with value := p.value.sign *
        (p.value.natAbs / 2 ^ (cub32 (mag32 p.value) - 24) * 2 ^ (cub32 (mag32 p.value) - 24) : Nat) } ∧
      |realFx p - realF32 (fromfix p)| < |realFx p| * (2 : ℚ) ^ (-23 : Int))

/-- R119's fields, for every operand that fits its ports: the exponent field is the low eight bits of `exp + 127`, and the
other two fields are as they are in range. The rule's results out of range are the spec's own decision D14. -/
def Obligations.FromfixExponentStaysInItsField : Prop :=
  ∀ p : FixedPoint, p.wf = true → p.value ≠ 0 →
    let e : Int := reconstructedExponent (cub32 (mag32 p.value)) p.scaling + 127
    0 ≤ e ∧ e ≤ 286 ∧ ((expField (fromfix p)).toNat : Int) = e % 256 ∧
    (signField (fromfix p) = 1 ↔ p.value < 0) ∧ mantField (fromfix p) = mantissaFieldOf (mag32 p.value) ∧
    (fromfixContract p = true ↔ 1 ≤ e ∧ e ≤ 254) ∧ (e = 0 ↔ p.value.natAbs = 1 ∧ p.scaling = 127)

/-- R120 item b, the round trip for normal finite operands (derived by the spec from R118 and R98). -/
def Obligations.RoundTripThroughFixedPoint : Prop :=
  ∀ x : Word, floatClass x = .normal →
    (-7 ≤ (decompose x).exponent → (decompose x).exponent ≤ 30 → fromfix (tofix x) = x) ∧
    (-30 ≤ (decompose x).exponent → (decompose x).exponent ≤ -8 →
      fromfix (tofix x) = (x >>> (-7 - (decompose x).exponent).toNat) <<< (-7 - (decompose x).exponent).toNat) ∧
    ((decompose x).exponent ≤ -31 → fromfix (tofix x) = 0) ∧
    (31 ≤ (decompose x).exponent → signField x = 0 → fromfix (tofix x) = 0x4EFFFFFF#32) ∧
    (31 ≤ (decompose x).exponent → signField x = 1 → fromfix (tofix x) = 0xCF000000#32)

/-! ### MUL -/

/-- R138, the whole pseudocode, with R135's formula for the narrowing. MUL completes on every pair of operands that fit
their ports; `res_scl` is the left operand's `scaling` bit for bit. -/
def Obligations.MulFollowsItsPseudocode : Prop :=
  ∀ (x y : FixedPoint) (s : State), x.wf = true → y.wf = true →
    let P : Int := x.value * y.value
    let sh : Int := x.scaling + y.scaling
    let Q : Int := if 0 ≤ sh then ⌊(P : ℚ) / 2 ^ sh.toNat⌋ else P * 2 ^ (-sh).toNat
    exec (.mul x y) s = .next { s with outputs :=
      { resVal := BitVec.ofInt 32 ((Q + 2 ^ 31) % 2 ^ 32 - 2 ^ 31), resScl := BitVec.ofInt 8 x.scaling } }

/-- R131: the exact product of two s32 lies in the stated range, so a signed 64-bit word holds it. -/
def Obligations.WideProductFits64Bits : Prop :=
  ∀ x y : FixedPoint, x.wf = true → y.wf = true →
    -2 ^ 62 + 2 ^ 31 ≤ wideProduct x y ∧ wideProduct x y ≤ 2 ^ 62 ∧
    (BitVec.ofInt 64 (wideProduct x y)).toInt = wideProduct x y ∧
    (wideProduct x y = 2 ^ 62 ↔ x.value = -2 ^ 31 ∧ y.value = -2 ^ 31)

/-- R131 and R133 as hardware: for a nonnegative sum of scalings, MUL's value is the low word of the arithmetic right shift of
a signed 32 × 32 → 64-bit multiply. -/
def Obligations.MulEqualsThe64BitDatapath : Prop :=
  ∀ (a b : Word) (aScl bScl : SclWord), 0 ≤ aScl.toInt + bScl.toInt →
    valuePattern (mul (fixedOperand a aScl) (fixedOperand b bScl)) =
      ((a.signExtend 64 * b.signExtend 64).sshiftRight (aScl.toInt + bScl.toInt).toNat).setWidth 32

/-- R135: where the shifted product fits 32 bits it is the value; otherwise the value is its low 32 bits, with no clamp. -/
def Obligations.MulWrapsWithoutSaturating : Prop :=
  ∀ x y : FixedPoint,
    (-2 ^ 31 ≤ shiftedProduct (wideProduct x y) (mulShift x y) → shiftedProduct (wideProduct x y) (mulShift x y) ≤ 2 ^ 31 - 1 →
      (mul x y).value = shiftedProduct (wideProduct x y) (mulShift x y)) ∧
    (mul x y).value = (shiftedProduct (wideProduct x y) (mulShift x y) + 2 ^ 31) % 2 ^ 32 - 2 ^ 31 ∧
    -2 ^ 31 ≤ (mul x y).value ∧ (mul x y).value ≤ 2 ^ 31 - 1

/-- R137: the scaling is the left operand's; exchanging the operands keeps the value. -/
def Obligations.OperandOrderAffectsOnlyTheScaling : Prop :=
  ∀ x y : FixedPoint, (mul x y).scaling = x.scaling ∧ (mul x y).value = (mul y x).value

/-- R132: the shift amount is the exact sum of the scalings, -256 to 254 over all port patterns and 0 to 60 for
lifecycle-reachable operands. -/
def Obligations.MulShiftAmountIsTheSumOfTheScalings : Prop :=
  (∀ x y : FixedPoint, mulShift x y = x.scaling + y.scaling ∧
    (x.wf = true → y.wf = true → -256 ≤ mulShift x y ∧ mulShift x y ≤ 254)) ∧
  ∀ x y : FixedPoint, LifecycleReachable x → LifecycleReachable y → 0 ≤ mulShift x y ∧ mulShift x y ≤ 60

/-- D19 and U5: a negative shift amount, or one of 64 and above, puts MUL's operands outside the caller's contract, and every
other amount puts them inside. Lifecycle-reachable operands are inside MUL's contract and FROMFIX's (R132, R175). -/
def Obligations.ContractsHoldForLifecycleReachableOperands : Prop :=
  (∀ x y : FixedPoint, callerRespects (.mul x y) = false ↔ x.scaling + y.scaling < 0 ∨ 64 ≤ x.scaling + y.scaling) ∧
  ∀ x y : FixedPoint, LifecycleReachable x → LifecycleReachable y →
    callerRespects (.mul x y) = true ∧ callerRespects (.fromfix x) = true

/-- The ends of the shift amount (R133 and R134): from 63 up the value is 0 or -1 by the sign of the product, from -32 down it
is 0. Below 0 and from 64 up the operands are outside the caller's contract (D19, U5; log 6): a result about this spec's
hardware, on which no claim about the library may rest. -/
def Obligations.MulAtExtremeShiftAmounts : Prop :=
  ∀ x y : FixedPoint, x.wf = true → y.wf = true →
    (63 ≤ mulShift x y → 0 ≤ wideProduct x y → (mul x y).value = 0) ∧
    (63 ≤ mulShift x y → wideProduct x y < 0 → (mul x y).value = -1) ∧
    (mulShift x y ≤ -32 → (mul x y).value = 0)

/-- R139 (marked by the spec "derived: from rule R138" and R11): for a nonnegative shift and no wrap, the value is the floor of the real product,
and the labelled result is that floor divided by `2^x.scaling` once more. -/
def Obligations.MulValueIsTheFloorOfTheRealProduct : Prop :=
  ∀ x y : FixedPoint, 0 ≤ mulShift x y →
    -2 ^ 31 ≤ ⌊realFx x * realFx y⌋ → ⌊realFx x * realFx y⌋ ≤ 2 ^ 31 - 1 →
      (mul x y).value = ⌊realFx x * realFx y⌋ ∧ realFx (mul x y) = (⌊realFx x * realFx y⌋ : ℚ) / (2 : ℚ) ^ x.scaling

/-- R155: a zero operand takes the same path as any other and keeps the left operand's scaling; it does not become ZERO. -/
def Obligations.MulByZeroKeepsTheLeftScaling : Prop :=
  ∀ (x y : FixedPoint) (s : State), x.value = 0 ∨ y.value = 0 →
    exec (.mul x y) s = .next { s with outputs := { resVal := 0, resScl := BitVec.ofInt 8 x.scaling } }

/-! ### RESERVED and the transaction -/

/-- R61 on the machine's step: a pending command with `op = 3` is refused by name, and every other one gives a result: no
fault, no other refusal, whatever its operand fields hold. MODEL'S CHOICE: the refusal's name (log 4) and the pending list a
step takes its command from (log 2); R150 calls the refusal itself a property of the model. -/
def Obligations.OnlyTheReservedOperationIsRefused : Prop :=
  (∀ s : State, exec .reserved s = .refused .reservedOperation) ∧
  ∀ (s : State) (c : CommandWord) (rest : List CommandWord), s.pending = c :: rest →
    (opField c = 3 → step s = .refused .reservedOperation) ∧ (opField c ≠ 3 → ∃ t, step s = .next t)

/-- R61 on the decoder and the operations: `op = 3` and nothing else decodes to the reserved operation, which is refused;
a command with any other `op` is given a result, whatever its operand fields hold. The refusal is the one R61 asks of a
model; which name it has (log 4) is not stated here. -/
def Obligations.ReservedCommandsAreRefusedAndTheOthersComplete : Prop :=
  ∀ (c : CommandWord) (s : State),
    (decode c = .reserved ↔ opField c = 3) ∧
    (opField c = 3 → ∃ r, exec (decode c) s = .refused r) ∧ (opField c ≠ 3 → ∃ t, exec (decode c) s = .next t)

/-- A step runs the decoded instruction: with a command pending, the step is `exec` of its decoding on the state with that
command on the input ports and off the list; a result is recorded beside its command, a refusal stays that refusal (and `Fault` has
no value, R150). The list and the record are the model's (log 2). -/
def Obligations.StepRunsTheDecodedInstruction : Prop :=
  ∀ (s : State) (c : CommandWord) (rest : List CommandWord), s.pending = c :: rest →
    ∀ presented : State, presented = { s with inputs := inputsOf c, pending := rest } →
      (∀ t, exec (decode c) presented = .next t →
        step s = .next { t with transactions := t.transactions ++ [{ command := c, result := t.outputs }] }) ∧
      (∀ r, exec (decode c) presented = .refused r → step s = .refused r)

/-- With no command left nothing is pending and a step changes nothing. MODEL'S CHOICE (log 2): the host goes on holding the
last command (70_reset_and_hazards.md, section 5). -/
def Obligations.StepWithNothingPendingChangesNothing : Prop := ∀ s : State, s.pending = [] → step s = .next s

/-- R31 with R180: a transaction takes one command off the list, puts it on the input ports, drives `F` of it, records the
pair and changes nothing else. MODEL'S CHOICE: the list and the record (log 2). -/
def Obligations.TransactionDrivesFOfItsCommand : Prop :=
  ∀ (s : State) (c : CommandWord) (rest : List CommandWord) (o : Outputs), s.pending = c :: rest → blockFunction c = some o →
    step s = .next { inputs := inputsOf c, outputs := o, pending := rest,
                     transactions := s.transactions ++ [{ command := c, result := o }] }

/-- The frame of TOFIX, FROMFIX and MUL (R31, R43): an operation writes the two result ports and nothing else; there is no
register, flag or memory it could write (R20 to R25). The list and the record are the model's (log 2). -/
def Obligations.OperationsWriteOnlyTheResultPorts : Prop :=
  ∀ (i : Instr) (s t : State), exec i s = .next t →
    t.inputs = s.inputs ∧ t.pending = s.pending ∧ t.transactions = s.transactions

/-- Statelessness (R25, R31, R45): two machines in any two states that are given the same command agree on whether it
completes and on both result ports. The list the command is taken from is the model's (log 2). -/
def Obligations.ResultDependsOnTheCommandAlone : Prop :=
  ∀ (s u : State) (c : CommandWord) (rs ru : List CommandWord), s.pending = c :: rs → u.pending = c :: ru →
    ∀ t, step s = .next t → ∃ v, step u = .next v ∧ v.outputs = t.outputs ∧ v.inputs = t.inputs

/-- R180 with R45: a run over any list of commands without the reserved one ends with nothing pending, and records one result
a command, each `F` of its command alone, after what was recorded before. MODEL'S CHOICE: the list and the record (log 2). -/
def Obligations.RunRecordsFOfEachCommand : Prop :=
  ∀ (cs : List CommandWord) (s : State), s.pending = cs → (∀ c ∈ cs, opField c ≠ 3) →
    ∃ (t : State) (rs : List Outputs), core.run cs.length s = .next t ∧ t.pending = [] ∧
      cs.map blockFunction = rs.map some ∧ t.transactions = s.transactions ++ List.zipWith Transaction.mk cs rs

/-! ### Invariants -/

/-- The run's invariant holds before any command: with every port low (MODEL'S CHOICE, log 1) the outputs are `F` of the inputs,
as R170 asks of every instant, and nothing is recorded (log 2). -/
def Obligations.RunInvariantHoldsAtReset : Prop := RunInvariant State.reset

/-- Every step keeps the run's invariant: the outputs are `F` of the inputs (R31, R170), and every recorded result is `F` of its
own command alone (R180). MODEL'S CHOICE (log 2): the record itself, and the third part, that the ports show the last
recorded transaction, also after a step with nothing pending; R180 leaves open what the host holds on the inputs then. -/
def Obligations.EveryStepKeepsTheRunInvariant : Prop :=
  ∀ s t : State, RunInvariant s → step s = .next t → RunInvariant t

/-- R29 (marked by the spec "derived" from R93, R94 and R137): a lifecycle-reachable FixedPoint fits its ports, has scaling 0 to 30, and, unless its value
is zero, a reconstructed exponent of -30 to 31, so it is within FROMFIX's bound (R175). -/
def Obligations.LifecycleReachableValuesStayInRange : Prop :=
  ∀ p : FixedPoint, LifecycleReachable p →
    p.wf = true ∧ 0 ≤ p.scaling ∧ p.scaling ≤ 30 ∧ fromfixContract p = true ∧
    (p.value ≠ 0 → -30 ≤ reconstructedExponent (cub32 (mag32 p.value)) p.scaling ∧
      reconstructedExponent (cub32 (mag32 p.value)) p.scaling ≤ 31)
end

