-- ==== Sys2Proof/Laws/Primitives.lean ====
section
/-! SUPPORT. The primitives of R9 in Lean's own terms. -/

namespace Sys2Proof.Machine

/-- `signed_N` is the two's complement reading. -/
theorem signedN_eq_toInt {n : Nat} (u : BitVec n) : signedN u = u.toInt := by
  simp [signedN, BitVec.toInt_eq_toNat_cond]

/-- `unsigned_N(v)` as a number is `v` mod 2^N. -/
theorem toNat_unsignedN (n : Nat) (v : Int) : ((unsignedN n v).toNat : Int) = v % 2 ^ n := by
  have h : (0 : Int) ≤ v % 2 ^ n := Int.emod_nonneg _ (by positivity)
  simp [unsignedN, BitVec.toNat_ofInt, h]

/-- A pattern read and written again is itself. -/
theorem unsignedN_signedN {n : Nat} (u : BitVec n) : unsignedN n (signedN u) = u := by
  rw [signedN_eq_toInt, unsignedN, BitVec.ofInt_toInt]

/-- A value in the range of a width survives being written and read. -/
theorem signedN_unsignedN {n : Nat} (h : 0 < n) (v : Int) (hl : -2 ^ (n - 1) ≤ v) (hu : v < 2 ^ (n - 1)) :
    signedN (unsignedN n v) = v := by
  rw [signedN_eq_toInt, unsignedN, BitVec.toInt_ofInt_eq_self h hl hu]

/-- `signedN_unsignedN` at the width of a `value` port. -/
theorem signedN_unsignedN_value (v : Int) (hl : -2147483648 ≤ v) (hu : v ≤ 2147483647) : signedN (unsignedN 32 v) = v :=
  signedN_unsignedN (by decide) v hl (Int.lt_of_le_of_lt hu (by decide))

/-- `signedN_unsignedN` at the width of a `scaling` port. -/
theorem signedN_unsignedN_scaling (v : Int) (hl : -128 ≤ v) (hu : v ≤ 127) : signedN (unsignedN 8 v) = v :=
  signedN_unsignedN (by decide) v hl (Int.lt_of_le_of_lt hu (by decide))

theorem align_of_pos (v s : Int) (h : 0 < s) : align v s = v / 2 ^ s.toNat := by
  simp [align, h, shr]

theorem align_of_neg (v s : Int) (h : s < 0) : align v s = v * 2 ^ (-s).toNat := by
  simp [align, h, Int.not_lt.mpr h.le, shl]

theorem align_zero (v : Int) : align v 0 = v := rfl

/-- For an amount that is not positive, `align` is the exact multiple. -/
theorem align_of_nonpos (v s : Int) (h : s ≤ 0) : align v s = v * 2 ^ (-s).toNat := by
  rcases h.lt_or_eq with h | rfl
  · exact align_of_neg v s h
  · simp [align_zero]

/-- The narrowing as one formula on integers. -/
theorem trunc32_eq_bmod (v : Int) : trunc32 v = v.bmod (2 ^ 32) := by
  rw [trunc32, signedN_eq_toInt, unsignedN, BitVec.toInt_ofInt]

/-- Writing a narrowed value drives the low 32 bits. -/
theorem unsignedN_trunc32 (v : Int) : unsignedN 32 (trunc32 v) = unsignedN 32 v := unsignedN_signedN _

end Sys2Proof.Machine
end

