-- ==== Sys2Proof/Laws/BitLayout.lean ====
section
/-! SUPPORT. The counters and the magnitude: one lemma each over the number of bits looked at. -/

namespace Sys2Proof.Machine

theorem usedBitsBelow_le (u : Word) (n : Nat) : usedBitsBelow u n ≤ n := by
  induction n with
  | zero => simp [usedBitsBelow]
  | succ n ih => simp only [usedBitsBelow]; split <;> omega

/-- No bit from the count up to the limit is set. -/
theorem getLsbD_of_usedBitsBelow_le (u : Word) (n i : Nat) (hi : usedBitsBelow u n ≤ i) (hn : i < n) :
    u.getLsbD i = false := by
  induction n with
  | zero => omega
  | succ n ih =>
    by_cases hb : u.getLsbD n = true
    · simp only [usedBitsBelow, hb, if_true] at hi; omega
    · simp only [usedBitsBelow, hb] at hi
      rcases Nat.lt_succ_iff_lt_or_eq.mp hn with h | rfl
      · exact ih (by simpa using hi) h
      · simpa using hb

/-- The bit the count points at is set, unless the count is 0. -/
theorem getLsbD_usedBitsBelow (u : Word) (n : Nat) (h : usedBitsBelow u n ≠ 0) :
    u.getLsbD (usedBitsBelow u n - 1) = true := by
  induction n with
  | zero => simp [usedBitsBelow] at h
  | succ n ih =>
    by_cases hb : u.getLsbD n = true
    · simp [usedBitsBelow, hb]
    · simp only [usedBitsBelow, hb] at h ⊢; exact ih (by simpa using h)

/-- Within the range of an s32 the magnitude is exact. -/
theorem toNat_mag32 (v : Int) (h : v.natAbs < 2 ^ 32) : (mag32 v).toNat = v.natAbs := by
  have := toNat_unsignedN 32 v.natAbs
  rw [mag32]; omega

theorem toNat_assemble (sign : BitVec 1) (expfield : BitVec 8) (mant : BitVec 23) :
    (assemble sign expfield mant).toNat = (sign.toNat * 2 ^ 8 + expfield.toNat) * 2 ^ 23 + mant.toNat := by
  have h1 := expfield.isLt
  have h2 := mant.isLt
  simp only [assemble, BitVec.toNat_append]
  rw [← Nat.shiftLeft_add_eq_or_of_lt h1, ← Nat.shiftLeft_add_eq_or_of_lt h2, Nat.shiftLeft_eq, Nat.shiftLeft_eq]

end Sys2Proof.Machine
end

