-- ==== Sys2Proof/Laws/WellFormed.lean ====
section
/-! SUPPORT. The port ranges as inequalities, and operands read from ports and written to them. -/

namespace Sys2Proof

/-- Both fields fit their ports (R27, R32). -/
theorem FixedPoint.wf_iff (p : FixedPoint) :
    p.wf = true ↔ (-2147483648 ≤ p.value ∧ p.value ≤ 2147483647) ∧ -128 ≤ p.scaling ∧ p.scaling ≤ 127 := by
  simp only [FixedPoint.wf, FixedPoint.valueFits, FixedPoint.scalingFits, Bool.and_eq_true, decide_eq_true_eq]
  rfl

/-- An operand read from two port patterns drives those patterns again. -/
theorem patterns_fixedOperand (v : Word) (s : SclWord) :
    valuePattern (fixedOperand v s) = v ∧ scalingPattern (fixedOperand v s) = s :=
  ⟨Machine.unsignedN_signedN v, Machine.unsignedN_signedN s⟩

/-- A FixedPoint that fits its ports is read back from its patterns. -/
theorem fixedOperand_patterns (p : FixedPoint) (h : p.wf = true) :
    fixedOperand (valuePattern p) (scalingPattern p) = p := by
  obtain ⟨⟨v1, v2⟩, s1, s2⟩ := (FixedPoint.wf_iff p).1 h
  simp only [fixedOperand, valuePattern, scalingPattern, Machine.signedN_unsignedN_value _ v1 v2,
    Machine.signedN_unsignedN_scaling _ s1 s2]

end Sys2Proof
end

