-- ==== Sys2Proof/Laws/Decode.lean ====
section
/-! SUPPORT. The decoder, one lemma per value of the operation select (R59). -/

namespace Sys2Proof

/-- The operation select has four values. -/
theorem opWord_cases (o : OpWord) : o = 0 ∨ o = 1 ∨ o = 2 ∨ o = 3 := by revert o; decide

theorem decode_of_op_zero (c : CommandWord) (h : opField c = 0) : decode c = .tofix (aValField c) := by
  unfold decode; rw [h]; rfl

theorem decode_of_op_one (c : CommandWord) (h : opField c = 1) :
    decode c = .fromfix (fixedOperand (aValField c) (aSclField c)) := by
  unfold decode; rw [h]; rfl

theorem decode_of_op_two (c : CommandWord) (h : opField c = 2) :
    decode c = .mul (fixedOperand (aValField c) (aSclField c)) (fixedOperand (bValField c) (bSclField c)) := by
  unfold decode; rw [h]; rfl

theorem decode_of_op_three (c : CommandWord) (h : opField c = 3) : decode c = .reserved := by
  unfold decode; rw [h]; rfl

/-- A command word as a number (R57). -/
theorem toNat_commandOf (op : OpWord) (bScl : SclWord) (bVal : Word) (aScl : SclWord) (aVal : Word) :
    (commandOf op bScl bVal aScl aVal).toNat =
      (((op.toNat * 2 ^ 8 + bScl.toNat) * 2 ^ 32 + bVal.toNat) * 2 ^ 8 + aScl.toNat) * 2 ^ 32 + aVal.toNat := by
  simp only [commandOf, BitVec.toNat_append]
  rw [← Nat.shiftLeft_add_eq_or_of_lt bScl.isLt, ← Nat.shiftLeft_add_eq_or_of_lt bVal.isLt,
    ← Nat.shiftLeft_add_eq_or_of_lt aScl.isLt, ← Nat.shiftLeft_add_eq_or_of_lt aVal.isLt]
  simp only [Nat.shiftLeft_eq]

/-- The operation select of an assembled word is the one put in. -/
theorem opField_commandOf (op : OpWord) (bScl : SclWord) (bVal : Word) (aScl : SclWord) (aVal : Word) :
    opField (commandOf op bScl bVal aScl aVal) = op := by
  have h0 := op.isLt
  have h1 := bScl.isLt
  have h2 := bVal.isLt
  have h3 := aScl.isLt
  have h4 := aVal.isLt
  apply BitVec.eq_of_toNat_eq
  rw [opField, BitVec.extractLsb'_toNat, toNat_commandOf, Nat.shiftRight_eq_div_pow]
  omega

end Sys2Proof
end

