-- ==== Sys2Proof/Laws/FromFixed.lean ====
section
/-! SUPPORT. The two paths of FROMFIX. -/

namespace Sys2Proof.Machine

/-- The zero path (R111). -/
theorem fromfix_of_zero (p : FixedPoint) (h : p.value = 0) : fromfix p = 0 := by simp [fromfix, h]

/-- The other path (R112 to R117). -/
theorem fromfix_of_ne_zero (p : FixedPoint) (h : p.value ≠ 0) :
    fromfix p = assemble (signOf p.value)
      (exponentFieldOf (reconstructedExponent (cub32 (mag32 p.value)) p.scaling)) (mantissaFieldOf (mag32 p.value)) := by
  simp [fromfix, h]

theorem toNat_signOf (v : Int) : (signOf v).toNat = if v < 0 then 1 else 0 := by
  unfold signOf; split <;> rfl

/-- Up to 24 used bits the normalizing shift loses nothing. -/
theorem normalized_of_le (mag : Word) (h : cub32 mag ≤ 24) : normalized mag = mag.toNat * 2 ^ (24 - cub32 mag) := by
  have hs : (-normalizingShift (cub32 mag)).toNat = 24 - cub32 mag := by
    simp only [normalizingShift, Config.mantissaBits]; omega
  rw [normalized, align_of_nonpos _ _ (by simp only [normalizingShift, Config.mantissaBits]; omega), hs]

/-- Above 24 used bits the low `used_bits - 24` bits are discarded. -/
theorem normalized_of_lt (mag : Word) (h : 24 < cub32 mag) : normalized mag = mag.toNat / 2 ^ (cub32 mag - 24) := by
  have hs : (normalizingShift (cub32 mag)).toNat = cub32 mag - 24 := by
    simp only [normalizingShift, Config.mantissaBits]; omega
  rw [normalized, align_of_pos _ _ (by simp only [normalizingShift, Config.mantissaBits]; omega), hs]

end Sys2Proof.Machine
end

