-- ==== Sys2Proof/Laws/Multiply.lean ====
section
/-! SUPPORT. The steps of MUL. -/

namespace Sys2Proof.Machine

theorem shiftedProduct_of_nonneg (p s : Int) (h : 0 ≤ s) : shiftedProduct p s = p / 2 ^ s.toNat := by
  simp [shiftedProduct, h, shr]

theorem shiftedProduct_of_neg (p s : Int) (h : s < 0) : shiftedProduct p s = p * 2 ^ (-s).toNat := by
  simp [shiftedProduct, Int.not_le.mpr h, shl]

theorem mul_scaling (x y : FixedPoint) : (mul x y).scaling = x.scaling := rfl

/-- MUL drives the low 32 bits of the shifted product. -/
theorem valuePattern_mul (x y : FixedPoint) :
    valuePattern (mul x y) = unsignedN 32 (shiftedProduct (wideProduct x y) (mulShift x y)) := unsignedN_trunc32 _

/-- MUL drives the left operand's `scaling` pattern. -/
theorem scalingPattern_mul (x y : FixedPoint) : scalingPattern (mul x y) = scalingPattern x := rfl

end Sys2Proof.Machine
end

