-- ==== Sys2Proof/Laws/Operands.lean ====
section
/-! SUPPORT. The fields of a float32 word as numbers. -/

namespace Sys2Proof.Machine

theorem toNat_signField (b : Word) : (signField b).toNat = b.toNat / 2 ^ 31 := by
  have := b.isLt
  simp only [signField, BitVec.extractLsb'_toNat, Nat.shiftRight_eq_div_pow]; omega

theorem toNat_expField (b : Word) : (expField b).toNat = b.toNat / 2 ^ 23 % 2 ^ 8 := by
  simp only [expField, BitVec.extractLsb'_toNat, Nat.shiftRight_eq_div_pow]

theorem toNat_mantField (b : Word) : (mantField b).toNat = b.toNat % 2 ^ 23 := by
  simp only [mantField, BitVec.extractLsb'_toNat, Nat.shiftRight_eq_div_pow, Nat.pow_zero, Nat.div_one]

/-- A word is the sum of its fields in place. -/
theorem toNat_eq_fields (b : Word) :
    b.toNat = (signField b).toNat * 2 ^ 31 + (expField b).toNat * 2 ^ 23 + (mantField b).toNat := by
  have := b.isLt
  rw [toNat_signField, toNat_expField, toNat_mantField]; omega

theorem decompose_sign (b : Word) : (decompose b).sign = signField b := rfl

theorem decompose_exponent (b : Word) : (decompose b).exponent = (expField b).toNat - 127 := rfl

/-- The implicit bit lies above the mantissa field, so OR adds it. -/
theorem toNat_decompose_mantissa (b : Word) : (decompose b).mantissa.toNat = (mantField b).toNat + 2 ^ 23 := by
  have h := (mantField b).isLt
  have hm : (mantField b).toNat % 2 ^ 24 = (mantField b).toNat := Nat.mod_eq_of_lt (by omega)
  have ho := Nat.two_pow_add_eq_or_of_lt (i := 23) h 1
  simp only [decompose, Config.implicitBit, BitVec.toNat_or, BitVec.toNat_setWidth, hm]
  rw [Nat.or_comm]
  exact ho.symm.trans (by omega)

/-- The significand's range, whatever the class of the pattern (R72). -/
theorem mantissa_bounds (b : Word) :
    2 ^ 23 ≤ (decompose b).mantissa.toNat ∧ (decompose b).mantissa.toNat < 2 ^ 24 := by
  have := (mantField b).isLt
  rw [toNat_decompose_mantissa]; omega

/-- A pattern is normal exactly when its exponent field is 1 to 254 (R11). -/
theorem floatClass_eq_normal_iff (b : Word) :
    floatClass b = .normal ↔ 1 ≤ (expField b).toNat ∧ (expField b).toNat ≤ 254 := by
  have he : ∀ e : BitVec 8, (e ≠ 0 ∧ e ≠ 255) ↔ 1 ≤ e.toNat ∧ e.toNat ≤ 254 := by decide
  rw [← he]
  unfold floatClass
  split
  · split <;> simp_all
  · split
    · split <;> simp_all
    · simp_all

end Sys2Proof.Machine
end

