-- ==== Sys2Proof/Laws/PerInstr.lean ====
section
/-! SUPPORT. Statements about every instruction as written, one lemma a constructor. -/

namespace Sys2Proof.Laws.OpcodeRow

/-- The encoder puts the instruction's own number in the operation select, and the opcode map reads it back (R59). -/
def Statement (i : Instr) : Prop :=
  opField (encode i) = opcode i.operation ∧ operationOf (opField (encode i)) = i.operation

theorem tofix (x : Word) : Statement (.tofix x) := by
  simp only [Statement, encode, opField_commandOf, Instr.operation, true_and]; rfl

theorem fromfix (x : FixedPoint) : Statement (.fromfix x) := by
  simp only [Statement, encode, opField_commandOf, Instr.operation, true_and]; rfl

theorem mul (x y : FixedPoint) : Statement (.mul x y) := by
  simp only [Statement, encode, opField_commandOf, Instr.operation, true_and]; rfl

theorem reserved : Statement .reserved := by
  simp only [Statement, encode, opField_commandOf, Instr.operation, true_and]; rfl

end Sys2Proof.Laws.OpcodeRow
end

