-- ==== Sys2Proof/Laws/State.lean ====
section
/-! SUPPORT. One lemma per field per update of State, so that no proof unfolds a record update. -/

namespace Sys2Proof.Machine

@[simp] theorem present_inputs (s : State) (c : CommandWord) (rest : List CommandWord) : (s.present c rest).inputs = inputsOf c := rfl
@[simp] theorem present_outputs (s : State) (c : CommandWord) (rest : List CommandWord) : (s.present c rest).outputs = s.outputs := rfl
@[simp] theorem present_pending (s : State) (c : CommandWord) (rest : List CommandWord) : (s.present c rest).pending = rest := rfl
@[simp] theorem present_transactions (s : State) (c : CommandWord) (rest : List CommandWord) :
    (s.present c rest).transactions = s.transactions := rfl

@[simp] theorem drive_inputs (s : State) (o : Outputs) : (s.drive o).inputs = s.inputs := rfl
@[simp] theorem drive_outputs (s : State) (o : Outputs) : (s.drive o).outputs = o := rfl
@[simp] theorem drive_pending (s : State) (o : Outputs) : (s.drive o).pending = s.pending := rfl
@[simp] theorem drive_transactions (s : State) (o : Outputs) : (s.drive o).transactions = s.transactions := rfl

@[simp] theorem record_inputs (s : State) (c : CommandWord) : (s.record c).inputs = s.inputs := rfl
@[simp] theorem record_outputs (s : State) (c : CommandWord) : (s.record c).outputs = s.outputs := rfl
@[simp] theorem record_pending (s : State) (c : CommandWord) : (s.record c).pending = s.pending := rfl
@[simp] theorem record_transactions (s : State) (c : CommandWord) :
    (s.record c).transactions = s.transactions ++ [{ command := c, result := s.outputs }] := rfl

@[simp] theorem enqueueFirst_inputs (s : State) (c : CommandWord) : (s.enqueueFirst c).inputs = s.inputs := rfl
@[simp] theorem enqueueFirst_outputs (s : State) (c : CommandWord) : (s.enqueueFirst c).outputs = s.outputs := rfl
@[simp] theorem enqueueFirst_pending (s : State) (c : CommandWord) : (s.enqueueFirst c).pending = c :: s.pending := rfl
@[simp] theorem enqueueFirst_transactions (s : State) (c : CommandWord) :
    (s.enqueueFirst c).transactions = s.transactions := rfl

end Sys2Proof.Machine
end

