-- ==== Sys2Proof/Laws/Step.lean ====
section
/-! SUPPORT. Everything an operation, a transaction and a step can do, said once. -/

namespace Sys2Proof.Machine

/-- An operation answers a next state exactly when it has a result, and then it only drives that result. -/
theorem exec_eq_next_iff (i : Instr) (s t : State) :
    exec i s = .next t ↔ ∃ o, resultOf i = some o ∧ t = s.drive o := by
  cases i <;> simp [exec, resultOf, execTofix, execFromfix, execMul, execReserved, eq_comm]

/-- No operation faults. -/
theorem exec_ne_fault (i : Instr) (s : State) (r : Fault) : exec i s ≠ .fault r := by cases r

/-- An operation is refused exactly when it is the reserved one. -/
theorem exec_eq_refused_iff (i : Instr) (s : State) (r : Refusal) :
    exec i s = .refused r ↔ i = .reserved ∧ r = .reservedOperation := by
  cases i <;> simp [exec, execTofix, execFromfix, execMul, execReserved, eq_comm]

/-- A transaction ends in a next state exactly when its operation did, and then the pair is recorded. -/
theorem completeTransaction_eq_next_iff (c : CommandWord) (o : Host.Outcome State Fault Refusal) (t : State) :
    completeTransaction c o = .next t ↔ ∃ u, o = .next u ∧ t = u.record c := by
  cases o <;> simp [completeTransaction, eq_comm]

/-- A transaction is refused exactly when its operation was. -/
theorem completeTransaction_eq_refused_iff (c : CommandWord) (o : Host.Outcome State Fault Refusal) (r : Refusal) :
    completeTransaction c o = .refused r ↔ o = .refused r := by
  cases o <;> simp [completeTransaction]

/-- All a step can do: nothing is pending and the state stays, or one command is presented, given `F` of it, and recorded. -/
theorem step_eq_next_iff (s t : State) :
    step s = .next t ↔
      (s.pending = [] ∧ t = s) ∨
      ∃ c rest o, s.pending = c :: rest ∧ blockFunction c = some o ∧ t = ((s.present c rest).drive o).record c := by
  cases h : s.pending with
  | nil => simp [step, h, eq_comm]
  | cons c rest =>
    simp only [step, h, completeTransaction_eq_next_iff, exec_eq_next_iff, blockFunction]
    constructor
    · rintro ⟨u, ⟨o, ho, rfl⟩, rfl⟩
      exact .inr ⟨c, rest, o, rfl, ho, rfl⟩
    · rintro (⟨h, -⟩ | ⟨c', rest', o, hc, ho, rfl⟩)
      · cases h
      · cases hc
        exact ⟨_, ⟨o, ho, rfl⟩, rfl⟩

end Sys2Proof.Machine
end

