-- ==== Sys2Proof/Laws/Run.lean ====
section
/-! SUPPORT. Running the machine several steps. -/

namespace Sys2Proof.Machine

/-- A run of no steps stays where it is. -/
theorem run_zero (s : State) : Sys2Proof.core.run 0 s = .next s := rfl

/-- A run whose first step answers `t` goes on from `t`. -/
theorem run_succ_of_next (n : Nat) (s t : State) (h : step s = .next t) :
    Sys2Proof.core.run (n + 1) s = Sys2Proof.core.run n t := by
  have hr := Host.Core.run.eq_2 Sys2Proof.core s n
  have hc : Sys2Proof.core.step s = .next t := h
  rw [hc] at hr
  exact hr

end Sys2Proof.Machine
end

