-- ==== Sys2Proof/Laws/Safety.lean ====
section
/-! SUPPORT. The caller's contract and the host's saturation test as propositions. -/

namespace Sys2Proof.Machine

/-- The host's test compares with two numbers (R22). -/
theorem showsSaturation_iff (p : FixedPoint) :
    showsSaturation p = true ↔ p.value = 2147483647 ∨ p.value = -2147483648 := by
  simp only [showsSaturation, Bool.or_eq_true, decide_eq_true_eq]
  rfl

end Sys2Proof.Machine

namespace Sys2Proof.Safety

open Sys2Proof.Machine

/-- R175's bound as inequalities; zero needs none. -/
theorem fromfixContract_iff (p : FixedPoint) :
    fromfixContract p = true ↔
      p.value = 0 ∨ ((cub32 (mag32 p.value) : Int) - 128 ≤ p.scaling ∧ p.scaling ≤ (cub32 (mag32 p.value) : Int) + 125) := by
  simp only [fromfixContract, Bool.or_eq_true, Bool.and_eq_true, decide_eq_true_eq]

/-- MUL's contract as inequalities (D19). -/
theorem mulContract_iff (x y : FixedPoint) :
    mulContract x y = true ↔ 0 ≤ x.scaling + y.scaling ∧ x.scaling + y.scaling ≤ 63 := by
  simp only [mulContract, Bool.and_eq_true, decide_eq_true_eq]
  rfl

end Sys2Proof.Safety
end

