-- ==== Sys2Proof/Laws/ToFixed.lean ====
section
/-! SUPPORT. The paths of TOFIX, each said once. -/

namespace Sys2Proof.Machine

theorem chooseScaling_of_nonneg (e : Int) (h : 0 ≤ e) : chooseScaling e = 30 - e := by
  simp only [chooseScaling, Config.scalingCap]; omega

theorem chooseScaling_of_neg (e : Int) (h : e < 0) : chooseScaling e = 30 := by
  simp only [chooseScaling, Config.scalingCap]; omega

/-- The zero test looks at every bit but the sign. -/
theorem isZeroFloat_iff (x : Word) : isZeroFloat x = true ↔ x.toNat % 2 ^ 31 = 0 := by
  simp only [isZeroFloat, beq_iff_eq, ← BitVec.toNat_inj, BitVec.extractLsb'_toNat, Nat.shiftRight_zero]
  rfl

/-- The zero path (R91). -/
theorem tofix_of_zero (x : Word) (h : isZeroFloat x = true) : tofix x = FixedPoint.zero := by simp [tofix, h]

/-- A pattern on the saturation path is not a zero. -/
theorem isZeroFloat_of_le (x : Word) (h : 158 ≤ (expField x).toNat) : isZeroFloat x = false := by
  rw [toNat_expField] at h
  rw [← Bool.not_eq_true, isZeroFloat_iff]; omega

/-- The saturation path (R94). -/
theorem tofix_of_le (x : Word) (h : 158 ≤ (expField x).toNat) : tofix x = saturate (signField x) := by
  have hs : chooseScaling (decompose x).exponent < 0 := by
    rw [decompose_exponent, chooseScaling_of_nonneg _ (by omega)]; omega
  rw [tofix, isZeroFloat_of_le x h, tofixBits, if_pos hs]; rfl

/-- The shift path for a de-biased exponent of 0 or more: the constant left shift by 7 (R95, R96). -/
theorem tofix_of_nonneg (x : Word) (hl : 127 ≤ (expField x).toNat) (hu : (expField x).toNat < 158) :
    tofix x = { value := applySign (signField x) ((decompose x).mantissa.toNat * 2 ^ 7),
                scaling := 157 - (expField x).toNat } := by
  have hz : isZeroFloat x = false := by
    rw [toNat_expField] at hl; rw [← Bool.not_eq_true, isZeroFloat_iff]; omega
  have hc : chooseScaling (decompose x).exponent = 157 - (expField x).toNat := by
    rw [decompose_exponent, chooseScaling_of_nonneg _ (by omega)]; omega
  have ht : tofixShift (decompose x).exponent (157 - (expField x).toNat) = -7 := by
    rw [decompose_exponent, tofixShift, Config.mantissaBits]; omega
  have hn : ¬ (157 - ((expField x).toNat : Int) < 0) := by omega
  rw [tofix, hz, tofixBits, hc, if_neg hn, ht, align_of_neg _ _ (by decide)]
  rfl

/-- The shift path for a negative de-biased exponent: a variable shift at scaling 30 (R95, R96). -/
theorem tofix_of_neg (x : Word) (hz : isZeroFloat x = false) (hu : (expField x).toNat < 127) :
    tofix x = { value := applySign (signField x) (align (decompose x).mantissa.toNat (120 - (expField x).toNat)),
                scaling := 30 } := by
  have hc : chooseScaling (decompose x).exponent = 30 := by
    rw [decompose_exponent, chooseScaling_of_neg _ (by omega)]
  have ht : tofixShift (decompose x).exponent 30 = 120 - (expField x).toNat := by
    rw [decompose_exponent, tofixShift, Config.mantissaBits]; omega
  rw [tofix, hz, tofixBits, hc, if_neg (by decide), ht]
  rfl

/-- With the setting the spec uses, TOFIX drives the pair of `tofix`. -/
theorem execTofix_eq (x : Word) (s : State) : execTofix x s = .next (s.drive (fixedOutputs (tofix x))) := rfl

end Sys2Proof.Machine
end

