-- ==== Sys2Proof/Machine/HostProgram.lean ====
section
/-! DEFINITION. The host's side of a run (spec 30_encoding.md R63 to R66): mnemonics, operands and lines, and how a line becomes
one command once the values of its operands are known. FXP runs no program (R65); nothing here is part of `step`. Lines are
given as data, not as text: turning a decimal literal into a float32 pattern is an assembler's work (R64; log 9). -/

namespace Sys2Proof.Machine

/-- The mnemonics, and the source's function names as synonyms, in lower case (R63). -/
def mnemonicTable : List (List Char × Operation) :=
  [("tofix".toList, .tofix), ("to_fixed_point".toList, .tofix),
   ("fromfix".toList, .fromfix), ("from_fixed_point".toList, .fromfix),
   ("mul".toList, .mul), ("multiply".toList, .mul)]

/-- The operation a mnemonic names, without regard to case (R63). There is no `DIV` (R66). -/
def operationNamed (name : List Char) : Option Operation :=
  (mnemonicTable.find? fun row => row.1 == name.map Char.toLower).map Prod.snd

/-- What a host-side name stands for: the result of the line that bound it (R65). -/
inductive HostValue where
  /-- A TOFIX or MUL result. -/
  | fixed (p : FixedPoint)
  /-- A FROMFIX result. -/
  | float (w : Word)
  deriving DecidableEq, Repr

/-- The names bound so far. They are the host's variables, not FXP state (R65). -/
abbrev HostNames := List (String × HostValue)

/-- A float32 operand (R64). -/
inductive FloatOperand where
  | pattern (w : Word)
  | name (n : String)
  deriving DecidableEq, Repr

/-- A FixedPoint operand (R64, R66). -/
inductive FixedOperand where
  | literal (p : FixedPoint)
  | zero
  | max
  | min
  | name (n : String)
  /-- `(n.value, scaling)`: the host labels a result with another scaling (95_test_vectors.md P1). -/
  | relabelled (n : String) (scaling : Int)
  deriving DecidableEq, Repr

/-- The right side of a line (R64). The last form is the command `op = 3` of 95_test_vectors.md P5. -/
inductive LineOperation where
  | tofix (f : FloatOperand)
  | fromfix (p : FixedOperand)
  | mul (p q : FixedOperand)
  | reserved
  deriving DecidableEq, Repr

/-- `name = OPERATION operands` (R65). -/
structure Line where
  name : String
  operation : LineOperation
  deriving DecidableEq, Repr

/-- Why a line is no command. -/
inductive ProgramError where
  /-- A name that no earlier line binds (R65). -/
  | unbound
  /-- A name bound to the other kind of value. -/
  | wrongKind
  /-- The bound name is not fresh (R65). -/
  | notFresh
  /-- An operand does not fit its port (R27, R32). -/
  | outOfRange
  deriving DecidableEq, Repr

/-- The value a name is bound to. -/
def lookupName (env : HostNames) (n : String) : Except ProgramError HostValue :=
  match env.find? fun b => b.1 == n with
  | some b => .ok b.2
  | none => .error .unbound

/-- A name used as a FixedPoint. -/
def lookupFixed (env : HostNames) (n : String) : Except ProgramError FixedPoint :=
  match lookupName env n with
  | .ok (.fixed p) => .ok p
  | .ok (.float _) => .error .wrongKind
  | .error e => .error e

/-- A name used as a float32 pattern. -/
def lookupFloat (env : HostNames) (n : String) : Except ProgramError Word :=
  match lookupName env n with
  | .ok (.float w) => .ok w
  | .ok (.fixed _) => .error .wrongKind
  | .error e => .error e

/-- The pattern of a float32 operand. -/
def FloatOperand.resolve (env : HostNames) : FloatOperand → Except ProgramError Word
  | .pattern w => .ok w
  | .name n => lookupFloat env n

/-- The FixedPoint of an operand; the constants are those of R28. -/
def FixedOperand.resolve (env : HostNames) : FixedOperand → Except ProgramError FixedPoint
  | .literal p => .ok p
  | .zero => .ok FixedPoint.zero
  | .max => .ok FixedPoint.max
  | .min => .ok FixedPoint.min
  | .name n => lookupFixed env n
  | .relabelled n scaling => (lookupFixed env n).map fun p => { p with scaling := scaling }

/-- The instruction of a line's right side. -/
def LineOperation.resolve (env : HostNames) : LineOperation → Except ProgramError Instr
  | .tofix f => (f.resolve env).map .tofix
  | .fromfix p => (p.resolve env).map .fromfix
  | .mul p q => (p.resolve env).bind fun x => (q.resolve env).map (.mul x)
  | .reserved => .ok .reserved

/-- A line as one command word, once its operands are known (R65). -/
def Line.assemble (env : HostNames) (l : Line) : Except ProgramError CommandWord :=
  if env.any fun b => b.1 == l.name then .error .notFresh
  else (l.operation.resolve env).bind fun i => if i.wf then .ok (encode i) else .error .outOfRange

/-- What the host reads off the result ports after an operation (R60). -/
def hostReading (op : Operation) (o : Outputs) : HostValue :=
  match op with
  | .fromfix => .float o.resVal
  | .tofix => .fixed (fixedOperand o.resVal o.resScl)
  | .mul => .fixed (fixedOperand o.resVal o.resScl)
  | .reserved => .fixed (fixedOperand o.resVal o.resScl)

/-- How a host's run of a program ends. -/
inductive ProgramEnd where
  /-- After its last line (R65, R180). -/
  | finished (env : HostNames) (s : State)
  /-- A line that encodes to no command. -/
  | rejected (e : ProgramError)
  /-- A command the model refuses (R61). -/
  | stopped (r : Refusal)
  /-- No command faults (R150): `Fault` has no value. -/
  | faulted (r : Fault)
  deriving DecidableEq, Repr

/-- The host evaluates its lines in order, one transaction each (R65). -/
def runProgram (env : HostNames) (s : State) : List Line → ProgramEnd
  | [] => .finished env s
  | l :: rest =>
    match l.assemble env with
    | .error e => .rejected e
    | .ok c =>
      match step (s.enqueueFirst c) with
      | .next t => runProgram ((l.name, hostReading (decode c).operation t.outputs) :: env) t rest
      | .refused r => .stopped r
      | .fault r => .faulted r

end Sys2Proof.Machine
end

