-- ==== Sys2Proof/Tests/Slice0.lean ====
section
/-! SUPPORT. Tests with results from spec/, and a witness for every obligation that has hypotheses. -/

namespace Sys2Proof.Tests

open Sys2Proof.Machine Sys2Proof.Safety

/-! ### WellFormed refuses what does not fit a port -/

theorem test_wf_refuses_value_above : (Instr.fromfix { value := 2147483648, scaling := 0 }).wf = false := by decide
theorem test_wf_refuses_value_below : (Instr.fromfix { value := -2147483649, scaling := 0 }).wf = false := by decide
theorem test_wf_refuses_scaling_above : (Instr.fromfix { value := 0, scaling := 128 }).wf = false := by decide
theorem test_wf_refuses_scaling_below : (Instr.fromfix { value := 0, scaling := -129 }).wf = false := by decide
theorem test_wf_refuses_bad_left_operand :
    (Instr.mul { value := 2147483648, scaling := 0 } { value := 0, scaling := 0 }).wf = false := by decide
theorem test_wf_refuses_bad_right_operand :
    (Instr.mul { value := 0, scaling := 0 } { value := 0, scaling := 128 }).wf = false := by decide
theorem test_wf_accepts_the_port_limits :
    (Instr.mul { value := -2147483648, scaling := -128 } { value := 2147483647, scaling := 127 }).wf = true := by decide

/-! ### Decoding: words put together from R57's field positions -/

/-- op 0, a_val = 0x41780000; the other fields hold anything (R60). -/
theorem test_decode_tofix :
    decodeTableWord 88 (0 * 2 ^ 80 + 0xFF * 2 ^ 72 + 0xDEADBEEF * 2 ^ 40 + 0x55 * 2 ^ 32 + 0x41780000) =
      some (.tofix 0x41780000) := by decide

/-- op 1, a_scl = 0xFF is -1, a_val = 0xFFFFFFFB is -5. -/
theorem test_decode_fromfix :
    decodeTableWord 88 (1 * 2 ^ 80 + 0x7F * 2 ^ 72 + 0x12345678 * 2 ^ 40 + 0xFF * 2 ^ 32 + 0xFFFFFFFB) =
      some (.fromfix { value := -5, scaling := -1 }) := by decide

/-- op 2, operand B = (-6, -128), operand A = (7, 127). -/
theorem test_decode_mul :
    decodeTableWord 88 (2 * 2 ^ 80 + 0x80 * 2 ^ 72 + 0xFFFFFFFA * 2 ^ 40 + 0x7F * 2 ^ 32 + 0x00000007) =
      some (.mul { value := 7, scaling := 127 } { value := -6, scaling := -128 }) := by decide

theorem test_decode_reserved : decodeTableWord 88 (3 * 2 ^ 80 + 1) = some .reserved := by decide

/-- A one at bit 82 is no command (R62). -/
theorem test_decode_rejects_bit_82 : commandOfTableWord 88 (2 ^ 82) = .error .tooWide := by decide

theorem test_encode_mul :
    encode (.mul { value := 2080374784, scaling := 27 } { value := 1073741824, scaling := 29 }) =
      0x21D400000001B7C000000#82 := by decide

/-! ### One step on one command word, the result word read off the ports -/

/-- The result word after one step from reset on a command word; `none` where the step does not answer a next state. -/
def resultAfter (w : Nat) : Option ResultWord :=
  match step (State.reset.withFetchWord 88 w) with
  | .next t => some (resultWord t.outputs)
  | .fault _ => none
  | .refused _ => none

/-- 95_test_vectors.md 2.2: a truncated negative magnitude. -/
theorem test_tofix_truncates_the_magnitude : resultAfter 0x0000000000000BBFFFFFF = some 0x1EFF800001#40 := by decide
/-- 95_test_vectors.md 2.2: -2^31 saturates to MIN. -/
theorem test_tofix_saturates_to_min : resultAfter 0x0000000000000CF000000 = some 0x0080000000#40 := by decide
/-- 95_test_vectors.md 2.3: the magnitude of -2^31 and a normalizing shift of 8. -/
theorem test_fromfix_of_least_value : resultAfter 0x100000000001E80000000 = some 0x00C0000000#40 := by decide
/-- 95_test_vectors.md 2.3: an exponent of 286 keeps its low eight bits. -/
theorem test_fromfix_exponent_wraps : resultAfter 0x100000000008080000000 = some 0x008F000000#40 := by decide
/-- 95_test_vectors.md 2.4: floor of a negative product, and the left operand's scaling. -/
theorem test_mul_floors : resultAfter 0x2010000000501FFFFFFFB = some 0x01FFFFFFF9#40 := by decide
/-- 95_test_vectors.md 2.4: the product wraps, it does not saturate; the second shifts left. -/
theorem test_mul_wraps_and_shifts_left :
    resultAfter 0x2000000B505000000B505 = some 0x0080001219#40 ∧ resultAfter 0x20000000005FE00000003 = some 0xFE0000003C#40 := by
  decide
/-- 95_test_vectors.md P5: the model refuses op = 3. -/
theorem test_reserved_is_refused :
    step (State.reset.withFetchWord 88 0x300000000000000000000) = .refused .reservedOperation := rfl

/-- Frame on one step: the command stays on the ports, the list is used up, the pair is recorded. -/
theorem test_step_records_the_transaction :
    step (State.reset.withFetchWord 88 0x2070000007B0500000000) =
      .next { inputs := { cmdOp := 2, cmdAVal := 0, cmdAScl := 5, cmdBVal := 123, cmdBScl := 7 }
              outputs := { resVal := 0, resScl := 5 }
              pending := []
              transactions := [{ command := 0x2070000007B0500000000#82, result := { resVal := 0, resScl := 5 } }] } := rfl

/-! ### Helpers (95_test_vectors.md 2.1) and the other setting of TOFIX_SPECIAL -/

theorem test_counters : cub32 0x007FFFFF = 23 ∧ clz32 0x007FFFFF = 9 ∧ cub32 0x80000000 = 32 ∧ clz32 0x80000000 = 0 ∧
    clz32 0 = 32 := by decide
theorem test_decompose_subnormal : decompose 0x00000001 = { sign := 0, exponent := -127, mantissa := 0x800001 } := by decide
theorem test_decompose_nan : decompose 0xFFC00000 = { sign := 1, exponent := 128, mantissa := 0xC00000 } := by decide
/-- Under "any value" only the special patterns are drawn. -/
theorem test_tofix_any_value_leaves_normal_operands :
    tofixOutputs .anyValue 0x3F800000 = { resVal := 0x40000000, resScl := 30 } := by decide

/-! ### The host's lines (30_encoding.md R63, R65) -/

theorem test_mnemonics_ignore_case :
    operationNamed "FromFix".toList = some .fromfix ∧ operationNamed "MULTIPLY".toList = some .mul ∧
    operationNamed "div".toList = none := by decide
/-- A line that names an earlier result and labels it anew assembles to the command of 95_test_vectors.md P1, line r0. -/
theorem test_line_assembles :
    Line.assemble [("c", .fixed { value := 31, scaling := 27 })]
      { name := "r0", operation := .fromfix (.relabelled "c" 0) } = .ok 0x10000000000000000001F#82 := by decide

/-! ### Witnesses: concrete operands and states that meet each obligation's hypotheses, clause by clause -/

/-- A state with the given commands to present. -/
def stateWith (cs : List CommandWord) : State := { State.reset with pending := cs }

theorem witness_DecodeInvertsEncode :
    (Instr.mul { value := -2147483648, scaling := -128 } { value := 2147483647, scaling := 127 }).wf = true ∧
    (Instr.fromfix { value := 2147483647, scaling := -128 }).wf = true ∧ (Instr.tofix 0x80000000).wf = true ∧
    Instr.reserved.wf = true := by decide

theorem witness_OperationIsSelectedByOpAlone :
    opField 0x2FFFFFFFFFFFFFFFFFFFF#82 = opField 0x200000000000000000000#82 := by decide

theorem witness_IgnoredFieldsDoNotAffectTheResult : tofixContract 0x00000000 = true ∧ tofixContract 0xFF7FFFFF = true := by
  decide

theorem witness_UsedBitsIsThePositionOfTheHighestBit : (0x00000001#32 : Word) ≠ 0 ∧ (0x80000000#32 : Word) ≠ 0 := by decide

theorem witness_AlignShiftsBySignOfAmount : (0 : Int) ≤ 16777215 ∧ (16777215 : Int) < 2 ^ 24 ∧ ¬ (16777216 : Int) < 2 ^ 24 := by
  decide

theorem witness_MagnitudeIsExactInTheUnsignedDomain :
    ((-2 ^ 31 : Int) ≤ -2 ^ 31 ∧ (-2 ^ 31 : Int) < 0) ∧ ((0 : Int) ≤ 2 ^ 31 - 1 ∧ (2 ^ 31 - 1 : Int) ≤ 2 ^ 31 - 1) := by decide

theorem witness_NarrowingKeepsTheLow32Bits :
    ((-2 ^ 31 : Int) ≤ -2147483648 ∧ (-2147483648 : Int) ≤ 2 ^ 31 - 1) ∧ (-2 ^ 31 : Int) ≤ 2147483647 ∧
    (2147483647 : Int) ≤ 2 ^ 31 - 1 := by decide

theorem witness_DecomposeIsExactAndInjective :
    floatClass 0x00800000 = .normal ∧ (decompose 0x00800000).exponent = -126 ∧
    floatClass 0x7F7FFFFF = .normal ∧ (decompose 0x7F7FFFFF).exponent = 127 ∧
    decompose 0x3F800000 = decompose (0x3F000000 ||| 0x00800000) := by decide

/-- The five paths: zero, saturation by either sign at its least magnitude, the shift by either sign at its greatest. -/
theorem witness_TofixFollowsItsPseudocode :
    (0x80000000#32 &&& 0x7FFFFFFF#32 = 0) ∧
    (0xCF000000#32 &&& 0x7FFFFFFF#32 ≠ 0 ∧ 0xCF000000#32 &&& 0x80000000#32 ≠ 0 ∧
      min (30 - ((((0xCF000000#32 &&& 0x7F800000#32) >>> 23).toNat : Int) - 127)) 30 < 0) ∧
    (0x4F000000#32 &&& 0x7FFFFFFF#32 ≠ 0 ∧ ¬ (0x4F000000#32 &&& 0x80000000#32 ≠ 0) ∧
      min (30 - ((((0x4F000000#32 &&& 0x7F800000#32) >>> 23).toNat : Int) - 127)) 30 < 0) ∧
    (0xCEFFFFFF#32 &&& 0x7FFFFFFF#32 ≠ 0 ∧ 0xCEFFFFFF#32 &&& 0x80000000#32 ≠ 0 ∧
      0 ≤ min (30 - ((((0xCEFFFFFF#32 &&& 0x7F800000#32) >>> 23).toNat : Int) - 127)) 30) ∧
    (0x4EFFFFFF#32 &&& 0x7FFFFFFF#32 ≠ 0 ∧ ¬ (0x4EFFFFFF#32 &&& 0x80000000#32 ≠ 0) ∧
      0 ≤ min (30 - ((((0x4EFFFFFF#32 &&& 0x7F800000#32) >>> 23).toNat : Int) - 127)) 30) ∧
    tofixContract 0x80000000 = true ∧ tofixContract 0xCF000000 = true ∧ tofixContract 0x4EFFFFFF = true := by decide

theorem witness_TofixOfAZeroPatternIsZERO :
    ((0x80000000#32 : Word) = 0x00000000#32 ∨ (0x80000000#32 : Word) = 0x80000000#32) ∧ isZeroFloat 0x80000000 = true ∧
    isZeroFloat 0x00000001 = false := by decide

theorem witness_TofixSaturatesByTheSign :
    (chooseScaling (decompose 0xCF000000).exponent < 0 ∧ tofixContract 0xCF000000 = true ∧ signField 0xCF000000 = 1) ∧
    (chooseScaling (decompose 0x4F000000).exponent < 0 ∧ tofixContract 0x4F000000 = true ∧ signField 0x4F000000 = 0) ∧
    ¬ chooseScaling (decompose 0x4EFFFFFF).exponent < 0 := by decide

theorem witness_SaturationThresholdIsTwoToThe31 :
    (floatClass 0x4F000000 = .normal ∧ 31 ≤ (decompose 0x4F000000).exponent) ∧
    (floatClass 0x4EFFFFFF = .normal ∧ ¬ 31 ≤ (decompose 0x4EFFFFFF).exponent) := by decide

theorem witness_TofixIsExactFromTwoToTheMinus7 :
    (floatClass 0x3C000000 = .normal ∧ (decompose 0x3C000000).exponent = -7) ∧
    (floatClass 0x3F000000 = .normal ∧ (decompose 0x3F000000).exponent = -1) ∧
    (floatClass 0xBF800000 = .normal ∧ (decompose 0xBF800000).exponent = 0) ∧
    (floatClass 0x4EFFFFFF = .normal ∧ (decompose 0x4EFFFFFF).exponent = 30) := by decide

theorem witness_TofixTruncatesTheMagnitudeTowardZero :
    (floatClass 0xBBFFFFFF = .normal ∧ (decompose 0xBBFFFFFF).exponent = -8) ∧
    (floatClass 0x30FFFFFF = .normal ∧ (decompose 0x30FFFFFF).exponent = -30) := by decide

theorem witness_TofixUnderflowsToZeroAtScaling30 :
    (floatClass 0xB07FFFFF = .normal ∧ (decompose 0xB07FFFFF).exponent = -31) ∧
    (floatClass 0x00800000 = .normal ∧ (decompose 0x00800000).exponent = -126) := by decide

theorem witness_TofixIsSignSymmetric : (expField 0x4EFFFFFF).toNat < 158 ∧ 158 ≤ (expField 0x4F000000).toNat := by decide

theorem witness_TofixResultsFitTheirPorts : (expField 0x4EFFFFFF).toNat < 158 := by decide

theorem witness_TofixOfASpecialPatternUsesTheUniformDatapath :
    (expField 0x7F800000 = 255 ∧ signField 0x7F800000 = 0) ∧ (expField 0xFFC00000 = 255 ∧ signField 0xFFC00000 = 1) ∧
    floatClass 0x00000001 = .subnormal ∧ floatClass 0x807FFFFF = .subnormal := by decide

theorem witness_TofixSettingIsInvisibleWithinTheContract :
    tofixContract 0x80000000 = true ∧ tofixContract 0x00800000 = true ∧ tofixContract 0x7F7FFFFF = true ∧
    tofixContract 0x7F800000 = false := by decide

theorem witness_FromfixFollowsItsPseudocode :
    FixedPoint.wf { value := 0, scaling := -128 } = true ∧ FixedPoint.wf { value := -2147483648, scaling := 127 } = true ∧
    (-2147483648 : Int) ≠ 0 := by decide

theorem witness_NormalizationPutsTheLeadingOneAtBit23 : (0x00000001#32 : Word) ≠ 0 ∧ (0xFFFFFFFF#32 : Word) ≠ 0 := by decide

/-- 24 and 25 used bits, and both ends of the exponent bound. -/
theorem witness_FromfixIsExactUpTo24UsedBits :
    (FixedPoint.wf { value := 16777215, scaling := 0 } = true ∧ fromfixContract { value := 16777215, scaling := 0 } = true ∧
      cub32 (mag32 16777215) = 24) ∧
    (FixedPoint.wf { value := -33554431, scaling := 0 } = true ∧ fromfixContract { value := -33554431, scaling := 0 } = true ∧
      cub32 (mag32 (-33554431)) = 25) ∧
    fromfixContract { value := 1, scaling := 126 } = true ∧ fromfixContract { value := -2147483648, scaling := -96 } = true := by
  decide

theorem witness_FromfixExponentStaysInItsField :
    (FixedPoint.wf { value := 1, scaling := 127 } = true ∧ fromfixContract { value := 1, scaling := 127 } = false) ∧
    (FixedPoint.wf { value := -2147483648, scaling := -128 } = true ∧
      reconstructedExponent (cub32 (mag32 (-2147483648))) (-128) + 127 = 286) := by decide

theorem witness_RoundTripThroughFixedPoint :
    (floatClass 0x3C000000 = .normal ∧ (decompose 0x3C000000).exponent = -7) ∧
    (floatClass 0x3BFFFFFF = .normal ∧ (decompose 0x3BFFFFFF).exponent = -8) ∧
    (floatClass 0x30FFFFFF = .normal ∧ (decompose 0x30FFFFFF).exponent = -30) ∧
    (floatClass 0x30000000 = .normal ∧ (decompose 0x30000000).exponent = -31) ∧
    (floatClass 0x4F000000 = .normal ∧ (decompose 0x4F000000).exponent = 31 ∧ signField 0x4F000000 = 0) ∧
    (floatClass 0xFF7FFFFF = .normal ∧ (decompose 0xFF7FFFFF).exponent = 127 ∧ signField 0xFF7FFFFF = 1) := by decide

theorem witness_MulFollowsItsPseudocode :
    FixedPoint.wf { value := -2147483648, scaling := -128 } = true ∧ FixedPoint.wf { value := 2147483647, scaling := 127 } = true := by
  decide

theorem witness_WideProductFits64Bits :
    FixedPoint.wf { value := -2147483648, scaling := 0 } = true ∧
    wideProduct { value := -2147483648, scaling := 0 } { value := -2147483648, scaling := 0 } = 2 ^ 62 := by decide

theorem witness_MulEqualsThe64BitDatapath :
    0 ≤ (0x00#8 : SclWord).toInt + (0x00#8 : SclWord).toInt ∧ 0 ≤ (0x7F#8 : SclWord).toInt + (0x7F#8 : SclWord).toInt := by decide

/-- R140's rows: 2147483646 fits, and -2147483648 × (-2147483648, 31) misses by one. -/
theorem witness_MulWrapsWithoutSaturating :
    (shiftedProduct (wideProduct { value := 2147483647, scaling := 0 } { value := 2147483647, scaling := 31 })
      (mulShift { value := 2147483647, scaling := 0 } { value := 2147483647, scaling := 31 }) = 2147483646) ∧
    (shiftedProduct (wideProduct { value := -2147483648, scaling := 0 } { value := -2147483648, scaling := 31 })
      (mulShift { value := -2147483648, scaling := 0 } { value := -2147483648, scaling := 31 }) = 2147483648) := by decide

theorem witness_MulAtExtremeShiftAmounts :
    (63 ≤ mulShift { value := 1, scaling := 63 } { value := 1, scaling := 0 } ∧
      0 ≤ wideProduct { value := 1, scaling := 63 } { value := 1, scaling := 0 } ∧
      FixedPoint.wf { value := 1, scaling := 63 } = true ∧ FixedPoint.wf { value := 1, scaling := 0 } = true) ∧
    (63 ≤ mulShift { value := -1, scaling := 127 } { value := 1, scaling := 127 } ∧
      wideProduct { value := -1, scaling := 127 } { value := 1, scaling := 127 } < 0) ∧
    mulShift { value := 1, scaling := -32 } { value := 1, scaling := 0 } ≤ -32 := by decide

/-- R140's row (5, 1) × (5, 1): the floor of 6.25. -/
theorem witness_MulValueIsTheFloorOfTheRealProduct :
    0 ≤ mulShift { value := 5, scaling := 1 } { value := 5, scaling := 1 } ∧
    ⌊realFx { value := 5, scaling := 1 } * realFx { value := 5, scaling := 1 }⌋ = 6 := by
  refine ⟨by decide, ?_⟩
  rw [Int.floor_eq_iff]
  norm_num [realFx]

theorem witness_MulByZeroKeepsTheLeftScaling :
    (FixedPoint.value { value := 0, scaling := 5 } = 0 ∨ FixedPoint.value { value := 123, scaling := 7 } = 0) ∧
    (FixedPoint.value { value := 123, scaling := 7 } = 0 ∨ FixedPoint.value { value := 0, scaling := 5 } = 0) := by decide

theorem witness_OnlyTheReservedOperationIsRefused :
    ((stateWith [0x300000000000041780000#82]).pending = [0x300000000000041780000#82] ∧ opField 0x300000000000041780000#82 = 3) ∧
    ((stateWith [0x2FFFFFFFFFFFFFFFFFFFF#82]).pending = [0x2FFFFFFFFFFFFFFFFFFFF#82] ∧
      opField 0x2FFFFFFFFFFFFFFFFFFFF#82 ≠ 3) := by decide

/-- Every `op`, with the ignored and the operand fields at one extreme. -/
theorem witness_ReservedCommandsAreRefusedAndTheOthersComplete :
    opField 0x3FFFFFFFFFFFFFFFFFFFF#82 = 3 ∧ opField 0x0FFFFFFFFFFFFFFFFFFFF#82 ≠ 3 ∧
    opField 0x1FFFFFFFFFFFFFFFFFFFF#82 ≠ 3 ∧ opField 0x2FFFFFFFFFFFFFFFFFFFF#82 ≠ 3 := by decide

/-- A command that completes and one that is refused, each presented. -/
theorem witness_StepRunsTheDecodedInstruction :
    (∃ t, exec (decode 0x000000000000041780000#82) (State.reset.present 0x000000000000041780000#82 []) = .next t) ∧
    exec (decode 0x300000000000000000000#82) (State.reset.present 0x300000000000000000000#82 []) = .refused .reservedOperation :=
  ⟨⟨_, rfl⟩, rfl⟩

theorem witness_StepWithNothingPendingChangesNothing : State.reset.pending = [] := by decide

theorem witness_TransactionDrivesFOfItsCommand :
    (stateWith [0x100000000001B7C000000#82]).pending = 0x100000000001B7C000000#82 :: [] ∧
    blockFunction 0x100000000001B7C000000#82 = some { resVal := 0x41780000, resScl := 0 } := by decide

theorem witness_OperationsWriteOnlyTheResultPorts :
    (∃ t, exec (.tofix 0x3F800000) State.reset = .next t) ∧
    (∃ t, exec (.fromfix { value := 5, scaling := 0 }) State.reset = .next t) ∧
    ∃ t, exec (.mul { value := 7, scaling := 0 } { value := 6, scaling := 0 }) State.reset = .next t :=
  ⟨⟨_, rfl⟩, ⟨_, rfl⟩, ⟨_, rfl⟩⟩

/-- Two states with the same next command and nothing else in common; the first steps. -/
theorem witness_ResultDependsOnTheCommandAlone :
    (stateWith [0x000000000000041780000#82]).pending = [0x000000000000041780000#82] ∧
    ({ inputs := inputsOf 0x2FFFFFFFFFFFFFFFFFFFF#82, outputs := { resVal := 7, resScl := 7 },
       pending := [0x000000000000041780000#82, 0x300000000000000000000#82], transactions := [] } : State).pending =
      [0x000000000000041780000#82, 0x300000000000000000000#82] ∧
    ∃ t, step (stateWith [0x000000000000041780000#82]) = .next t :=
  ⟨rfl, rfl, ⟨_, rfl⟩⟩

theorem witness_RunRecordsFOfEachCommand :
    ∀ c ∈ (stateWith [0x000000000000041780000#82, 0x200000000060000000007#82]).pending, opField c ≠ 3 := by
  intro c hc
  simp only [stateWith, List.mem_cons, List.not_mem_nil, or_false] at hc
  rcases hc with rfl | rfl <;> decide

/-- The invariant in a state with a command to present, which then steps. -/
theorem witness_EveryStepKeepsTheRunInvariant :
    RunInvariant (stateWith [0x000000000000041780000#82]) ∧ ∃ t, step (stateWith [0x000000000000041780000#82]) = .next t :=
  ⟨{ outputs := by unfold OutputsFollowInputs; decide
     record := fun t h => by cases h
     ports := fun t h => by cases h }, ⟨_, rfl⟩⟩

/-- Both ends of the port range, and lifecycle-reachable operands at the greatest sum, 30 + 30. -/
theorem witness_MulShiftAmountIsTheSumOfTheScalings :
    (FixedPoint.wf { value := 0, scaling := -128 } = true ∧ FixedPoint.wf { value := 0, scaling := 127 } = true) ∧
    LifecycleReachable (tofix 0x3F800000) ∧ mulShift (tofix 0x3F800000) (tofix 0x3F800000) = 60 :=
  ⟨by decide, .ofTofix _, by decide⟩

/-- D19's amounts on either side of each end, and lifecycle-reachable operands. -/
theorem witness_ContractsHoldForLifecycleReachableOperands :
    (callerRespects (.mul { value := 1, scaling := -1 } { value := 1, scaling := 0 }) = false ∧
      callerRespects (.mul { value := 1, scaling := 1 } { value := 1, scaling := -1 }) = true ∧
      callerRespects (.mul { value := 1, scaling := 33 } { value := 1, scaling := 30 }) = true ∧
      callerRespects (.mul { value := 1, scaling := 34 } { value := 1, scaling := 30 }) = false) ∧
    LifecycleReachable (tofix 0x41780000) ∧ LifecycleReachable (tofix 0x40000000) :=
  ⟨by decide, .ofTofix _, .ofTofix _⟩

/-- A product of two TOFIX results, nonzero: 15.5 × 2.0 gives (31, 27) (R140). -/
theorem witness_LifecycleReachableValuesStayInRange :
    LifecycleReachable (mul (tofix 0x41780000) (tofix 0x40000000)) ∧
    mul (tofix 0x41780000) (tofix 0x40000000) = { value := 31, scaling := 27 } :=
  ⟨.ofMul _ _ (.ofTofix _) (.ofTofix _), by decide⟩

end Sys2Proof.Tests
end

section
/-! The encoding of commands, results and float32 words (30_encoding.md): the laws of the fields, and the statements they settle. -/

namespace Sys2Proof

/-! ### The operation select (R59, R61) -/

/-- The opcode map and the numbering of the operations are inverse to each other (R59). -/
theorem operationOf_eq_iff (o : OpWord) (k : Operation) : operationOf o = k ↔ o = opcode k := by
  cases k <;> revert o <;> decide

/-- The decoder looks at `op` alone to choose the operation (R59). -/
theorem operation_decode (c : CommandWord) : (decode c).operation = operationOf (opField c) := by
  unfold decode
  cases operationOf (opField c) <;> rfl

theorem operation_decode_eq_iff (c : CommandWord) (k : Operation) :
    (decode c).operation = k ↔ opField c = opcode k := by
  rw [operation_decode, operationOf_eq_iff]

/-- The reserved instruction is the only one of the reserved operation: it has no operands (R61). -/
theorem operation_eq_reserved_iff (i : Instr) : i.operation = .reserved ↔ i = .reserved := by
  cases i <;> simp [Instr.operation]

theorem decode_eq_reserved_iff (c : CommandWord) : decode c = .reserved ↔ opField c = 3 := by
  rw [← operation_eq_reserved_iff, operation_decode_eq_iff]; rfl

/-- The mask of R59's table keeps `op` in place and clears the 80 bits below it. -/
theorem and_opMask (c : CommandWord) : c &&& 0x300000000000000000000#82 = opField c ++ 0#80 := by
  have hsplit : opField c ++ c.extractLsb' 0 80 = c := BitVec.extractLsb'_append_extractLsb'
  have hmask : 0x300000000000000000000#82 = BitVec.allOnes 2 ++ 0#80 := by decide
  calc c &&& 0x300000000000000000000#82
      = (opField c ++ c.extractLsb' 0 80) &&& (BitVec.allOnes 2 ++ 0#80) := by rw [hsplit, hmask]
    _ = opField c ++ 0#80 := by rw [BitVec.and_append, BitVec.and_allOnes, BitVec.and_zero]

/-- A match under the mask of R59 compares `op` and nothing else. -/
theorem opField_eq_iff_and_opMask (c : CommandWord) (o : OpWord) :
    opField c = o ↔ c &&& 0x300000000000000000000#82 = o ++ 0#80 := by
  rw [and_opMask, BitVec.append_left_inj]

/-- Settles O3: the decoder's choice is `operation_decode_eq_iff`, the table's is `opField_eq_iff_and_opMask`. -/
theorem operationIsSelectedByOpAlone : Obligations.OperationIsSelectedByOpAlone := by
  unfold Obligations.OperationIsSelectedByOpAlone
  refine ⟨fun c => ?_, fun c d h => by rw [operation_decode, operation_decode, h]⟩
  have hmap := operation_decode_eq_iff c
  have hmatch := opField_eq_iff_and_opMask c
  exact ⟨hmap .tofix, hmap .fromfix, hmap .mul, hmap .reserved, hmatch 0, hmatch 1, hmatch 2, hmatch 3⟩

/-! ### The operand fields of an assembled command word (R57)

`opField_commandOf` of Laws/Decode.lean says the same of `op`. A field is found by passing over the fields below it. -/

@[simp] theorem aValField_commandOf (op : OpWord) (bScl : SclWord) (bVal : Word) (aScl : SclWord) (aVal : Word) :
    aValField (commandOf op bScl bVal aScl aVal) = aVal :=
  BitVec.extractLsb'_append_eq_right

@[simp] theorem aSclField_commandOf (op : OpWord) (bScl : SclWord) (bVal : Word) (aScl : SclWord) (aVal : Word) :
    aSclField (commandOf op bScl bVal aScl aVal) = aScl :=
  (BitVec.extractLsb'_append_eq_of_le (by decide)).trans BitVec.extractLsb'_append_eq_right

@[simp] theorem bValField_commandOf (op : OpWord) (bScl : SclWord) (bVal : Word) (aScl : SclWord) (aVal : Word) :
    bValField (commandOf op bScl bVal aScl aVal) = bVal :=
  calc bValField (commandOf op bScl bVal aScl aVal)
      = (op ++ bScl ++ bVal ++ aScl).extractLsb' 8 32 := BitVec.extractLsb'_append_eq_of_le (by decide)
    _ = (op ++ bScl ++ bVal).extractLsb' 0 32 := BitVec.extractLsb'_append_eq_of_le (by decide)
    _ = bVal := BitVec.extractLsb'_append_eq_right

@[simp] theorem bSclField_commandOf (op : OpWord) (bScl : SclWord) (bVal : Word) (aScl : SclWord) (aVal : Word) :
    bSclField (commandOf op bScl bVal aScl aVal) = bScl :=
  calc bSclField (commandOf op bScl bVal aScl aVal)
      = (op ++ bScl ++ bVal ++ aScl).extractLsb' 40 8 := BitVec.extractLsb'_append_eq_of_le (by decide)
    _ = (op ++ bScl ++ bVal).extractLsb' 32 8 := BitVec.extractLsb'_append_eq_of_le (by decide)
    _ = (op ++ bScl).extractLsb' 0 8 := BitVec.extractLsb'_append_eq_of_le (by decide)
    _ = bScl := BitVec.extractLsb'_append_eq_right

end Sys2Proof

namespace Sys2Proof.Machine

/-! ### The command word and the input ports (R57) -/

theorem inputsOf_commandOn (i : Inputs) : inputsOf (commandOn i) = i := by
  rw [commandOn, inputsOf, opField_commandOf, aValField_commandOf, aSclField_commandOf, bValField_commandOf,
    bSclField_commandOf]

/-- The five fields of a word side by side are the word: each begins where the next one ends. -/
theorem commandOn_inputsOf (c : CommandWord) : commandOn (inputsOf c) = c := by
  have h72 : opField c ++ bSclField c = c.extractLsb' 72 10 := BitVec.extractLsb'_append_extractLsb'_eq_extractLsb' rfl
  have h40 : c.extractLsb' 72 10 ++ bValField c = c.extractLsb' 40 42 :=
    BitVec.extractLsb'_append_extractLsb'_eq_extractLsb' rfl
  have h32 : c.extractLsb' 40 42 ++ aSclField c = c.extractLsb' 32 50 :=
    BitVec.extractLsb'_append_extractLsb'_eq_extractLsb' rfl
  have h0 : c.extractLsb' 32 50 ++ aValField c = c := BitVec.extractLsb'_append_extractLsb'
  simp only [commandOn, inputsOf, commandOf]
  rw [h72, h40, h32, h0]

/-- Settles O4: `toNat_commandOf` with its products multiplied out, and the two inverse directions. -/
theorem commandWordPacksTheInputPorts : Obligations.CommandWordPacksTheInputPorts := by
  unfold Obligations.CommandWordPacksTheInputPorts
  refine ⟨fun i => ?_, inputsOf_commandOn, commandOn_inputsOf⟩
  rw [commandOn, toNat_commandOf]
  ring

/-! ### The result word and the output ports (R58) -/

theorem toNat_resultWord (o : Outputs) : (resultWord o).toNat = o.resScl.toNat * 2 ^ 32 + o.resVal.toNat := by
  rw [resultWord, BitVec.toNat_append, ← Nat.shiftLeft_add_eq_or_of_lt o.resVal.isLt, Nat.shiftLeft_eq]

theorem outputsOf_resultWord (o : Outputs) : outputsOf (resultWord o) = o := by
  rw [outputsOf, resultWord, BitVec.extractLsb'_append_eq_right, BitVec.extractLsb'_append_eq_left]

theorem resultWord_outputsOf (r : ResultWord) : resultWord (outputsOf r) = r := BitVec.extractLsb'_append_extractLsb'

/-- Settles O5: the word as a number, and the two inverse directions. -/
theorem resultWordPacksTheOutputPorts : Obligations.ResultWordPacksTheOutputPorts := by
  unfold Obligations.ResultWordPacksTheOutputPorts
  exact ⟨toNat_resultWord, outputsOf_resultWord, resultWord_outputsOf⟩

/-! ### What the block reads and gives (R60)

The premise of each lemma is `op` alone: the ignored fields of the command are free. -/

theorem blockFunction_of_op_zero (c : CommandWord) (h : opField c = 0) :
    blockFunction c = some (tofixOutputs Config.tofixSpecial (aValField c)) := by
  rw [blockFunction, decode_of_op_zero c h, resultOf]

theorem blockFunction_of_op_one (c : CommandWord) (h : opField c = 1) :
    blockFunction c = some (fromfixOutputs (fixedOperand (aValField c) (aSclField c))) := by
  rw [blockFunction, decode_of_op_one c h, resultOf]

theorem blockFunction_of_op_two (c : CommandWord) (h : opField c = 2) :
    blockFunction c =
      some (mulOutputs (fixedOperand (aValField c) (aSclField c)) (fixedOperand (bValField c) (bSclField c))) := by
  rw [blockFunction, decode_of_op_two c h, resultOf]

/-- MUL drives `res_scl` with the pattern it was given on `a_scl` (R137). -/
theorem mulOutputs_fixedOperand (aVal : Word) (aScl : SclWord) (y : FixedPoint) :
    mulOutputs (fixedOperand aVal aScl) y = { resVal := valuePattern (mul (fixedOperand aVal aScl) y), resScl := aScl } := by
  obtain ⟨-, hscl⟩ := patterns_fixedOperand aVal aScl
  rw [mulOutputs, fixedOutputs, scalingPattern_mul, hscl]

/-- The scaling TOFIX answers, on each of its paths: 0 for a zero and on saturation, else 30 less the exponent, at most 30
(R91, R93, R94). -/
theorem tofix_scaling_bounds (x : Word) : 0 ≤ (tofix x).scaling ∧ (tofix x).scaling ≤ 30 := by
  by_cases hz : isZeroFloat x = true
  · rw [tofix_of_zero x hz]; decide
  rw [Bool.not_eq_true] at hz
  rcases Nat.lt_or_ge (expField x).toNat 127 with hneg | hnonneg
  · simp [tofix_of_neg x hz hneg]
  rcases Nat.lt_or_ge (expField x).toNat 158 with hlt | hsat
  · rw [tofix_of_nonneg x hnonneg hlt]; dsimp only; omega
  · rw [tofix_of_le x hsat]; unfold saturate; split <;> decide

/-- A scaling that is not negative and fits its port is driven as itself. -/
theorem toNat_scalingPattern (p : FixedPoint) (hl : 0 ≤ p.scaling) (hu : p.scaling ≤ 127) :
    ((scalingPattern p).toNat : Int) = p.scaling := by
  rw [scalingPattern, toNat_unsignedN]; omega

/-- Within the caller's contract TOFIX drives the pair of `tofix`, whatever the setting of TOFIX_SPECIAL (R99, R172). -/
theorem tofixOutputs_of_contract (setting : TofixSpecial) (x : Word) (h : Safety.tofixContract x = true) :
    tofixOutputs setting x = fixedOutputs (tofix x) := by
  have hs : isSpecial x = false := by simpa [Safety.tofixContract] using h
  cases setting with
  | uniformDatapath => rfl
  | anyValue => simp [tofixOutputs, hs]

/-- Settles O6: each operation's result from the fields it reads, with `tofix_scaling_bounds` for the range on `res_scl`. -/
theorem ignoredFieldsDoNotAffectTheResult : Obligations.IgnoredFieldsDoNotAffectTheResult := by
  unfold Obligations.IgnoredFieldsDoNotAffectTheResult
  refine ⟨fun bScl bVal aScl x => ⟨?_, tofixOutputs_of_contract _ x, ?_⟩, fun bScl bVal aScl aVal => ?_,
    fun bScl bVal aScl aVal => ?_⟩
  case refine_1 =>
    rw [blockFunction_of_op_zero _ (opField_commandOf ..), aValField_commandOf]
  case refine_2 =>
    obtain ⟨hl, hu⟩ := tofix_scaling_bounds x
    have := toNat_scalingPattern (tofix x) hl (by omega)
    omega
  case refine_3 =>
    rw [blockFunction_of_op_one _ (opField_commandOf ..), aValField_commandOf, aSclField_commandOf]
    rfl
  case refine_4 =>
    rw [blockFunction_of_op_two _ (opField_commandOf ..), aValField_commandOf, aSclField_commandOf,
      bValField_commandOf, bSclField_commandOf, mulOutputs_fixedOperand]

/-! ### The fields of a float32 word (R53) -/

/-- Cutting `len` bits out at `lo` is masking them in place and shifting them down. -/
theorem setWidth_extractLsb' {w : Nat} (b : BitVec w) (lo len : Nat) :
    (b.extractLsb' lo len).setWidth w = (b &&& (BitVec.allOnes len).setWidth w <<< lo) >>> lo := by
  ext i hi
  simp only [BitVec.getElem_setWidth, BitVec.getLsbD_extractLsb', BitVec.getElem_ushiftRight, BitVec.getLsbD_and,
    BitVec.getLsbD_shiftLeft, BitVec.getLsbD_setWidth, BitVec.getLsbD_allOnes]
  cases hb : b.getLsbD (lo + i) with
  | false => simp
  | true =>
    have hin : lo + i < w := BitVec.lt_of_getLsbD hb
    simp [hin, hi]

/-- The fields are adjacent, from bit 31 down to bit 0. -/
theorem fields_append (b : Word) : signField b ++ expField b ++ mantField b = b := by
  have hhigh : signField b ++ expField b = b.extractLsb' 23 9 := BitVec.extractLsb'_append_extractLsb'_eq_extractLsb' rfl
  have hall : b.extractLsb' 23 9 ++ mantField b = b := BitVec.extractLsb'_append_extractLsb'
  rw [hhigh, hall]

/-- Settles O9: each mask is ones at its field's place. -/
theorem fieldsAreCutByTheMasks : Obligations.FieldsAreCutByTheMasks := by
  unfold Obligations.FieldsAreCutByTheMasks
  intro b
  have hsign : (BitVec.allOnes 1).setWidth 32 <<< 31 = Config.signMask := by decide
  have hexp : (BitVec.allOnes 8).setWidth 32 <<< 23 = Config.expMask := by decide
  have hmant : (BitVec.allOnes 23).setWidth 32 <<< 0 = Config.mantMask := by decide
  refine ⟨?_, ?_, ?_, fields_append b⟩
  · rw [signField, setWidth_extractLsb', hsign]
  · rw [expField, setWidth_extractLsb', hexp]
  · rw [mantField, setWidth_extractLsb', hmant, BitVec.ushiftRight_zero]

/-! ### Refused and completing commands (R61) -/

/-- Every instruction but the reserved one completes, in every state. -/
theorem exists_exec_eq_next_iff (i : Instr) (s : State) : (∃ t, exec i s = .next t) ↔ i ≠ .reserved := by
  cases i <;> simp [exec_eq_next_iff, resultOf]

/-- Settles O53: `op = 3` alone decodes to the reserved instruction, the only one that does not complete. -/
theorem reservedCommandsAreRefusedAndTheOthersComplete :
    Obligations.ReservedCommandsAreRefusedAndTheOthersComplete := by
  unfold Obligations.ReservedCommandsAreRefusedAndTheOthersComplete
  intro c s
  have hres := decode_eq_reserved_iff c
  refine ⟨hres, fun h => ?_, fun h => ?_⟩
  · exact ⟨.reservedOperation, (exec_eq_refused_iff ..).2 ⟨hres.2 h, rfl⟩⟩
  · exact (exists_exec_eq_next_iff ..).2 fun hd => h (hres.1 hd)

end Sys2Proof.Machine
end

section
/-! The shared helpers (40_bitlayout_helpers.md): the used-bits counter, the magnitude unit, the field assembler, the
narrowing and the aligner, each with the statement it settles. -/

namespace Sys2Proof.Machine

/-! ### The used-bits counter (R73) -/

theorem cub32_le (u : Word) : cub32 u ≤ 32 := usedBitsBelow_le u 32

/-- No bit from the count upwards is set; past bit 31 there is none. -/
theorem getLsbD_of_cub32_le (u : Word) (i : Nat) (h : cub32 u ≤ i) : u.getLsbD i = false := by
  rcases Nat.lt_or_ge i 32 with hi | hi
  · exact getLsbD_of_usedBitsBelow_le u 32 i h hi
  · exact BitVec.getLsbD_of_ge u i hi

/-- The count is a number of bits that holds the word. -/
theorem toNat_lt_two_pow_cub32 (u : Word) : u.toNat < 2 ^ cub32 u :=
  Nat.lt_pow_two_of_testBit _ fun i hi => (BitVec.testBit_toNat u).trans (getLsbD_of_cub32_le u i hi)

/-- A count of 0 bounds the word by 2^0. -/
theorem cub32_ne_zero (u : Word) (h : u ≠ 0) : cub32 u ≠ 0 := by
  intro hc
  have hlt := toNat_lt_two_pow_cub32 u
  rw [hc, Nat.pow_zero, Nat.lt_one_iff] at hlt
  exact h (BitVec.eq_of_toNat_eq hlt)

theorem getLsbD_cub32_sub_one (u : Word) (h : u ≠ 0) : u.getLsbD (cub32 u - 1) = true :=
  getLsbD_usedBitsBelow u 32 (cub32_ne_zero u h)

/-- One bit fewer than the count does not hold the word. -/
theorem two_pow_cub32_sub_one_le_toNat (u : Word) (h : u ≠ 0) : 2 ^ (cub32 u - 1) ≤ u.toNat :=
  Nat.ge_two_pow_of_testBit ((BitVec.testBit_toNat u).trans (getLsbD_cub32_sub_one u h))

/-- Settles O11: the highest set bit from the laws of the counter, the bounds from that bit. -/
theorem usedBitsIsThePositionOfTheHighestBit : Obligations.UsedBitsIsThePositionOfTheHighestBit := by
  unfold Obligations.UsedBitsIsThePositionOfTheHighestBit
  refine ⟨by decide, fun u hu => ?_⟩
  exact ⟨Nat.one_le_iff_ne_zero.2 (cub32_ne_zero u hu), cub32_le u, getLsbD_cub32_sub_one u hu,
    getLsbD_of_cub32_le u, two_pow_cub32_sub_one_le_toNat u hu, toNat_lt_two_pow_cub32 u⟩

/-! ### The magnitude unit (R79) -/

theorem mag32_of_nonneg (v : Int) (h : 0 ≤ v) : mag32 v = unsignedN 32 v := by
  rw [mag32, Int.natAbs_of_nonneg h]

theorem mag32_of_nonpos (v : Int) (h : v ≤ 0) : mag32 v = unsignedN 32 (-v) := by
  rw [mag32, Int.ofNat_natAbs_of_nonpos h]

/-- Settles O14: a magnitude of at most 2^31 fits 32 bits (`toNat_mag32`), and the sign says which pattern it is. -/
theorem magnitudeIsExactInTheUnsignedDomain : Obligations.MagnitudeIsExactInTheUnsignedDomain := by
  unfold Obligations.MagnitudeIsExactInTheUnsignedDomain
  intro v hl hu
  have hfits : v.natAbs < 2 ^ 32 := by omega
  refine ⟨?_, mag32_of_nonneg v, fun h => mag32_of_nonpos v h.le, by decide⟩
  rw [toNat_mag32 v hfits, Int.natCast_natAbs]

/-! ### The field assembler (R80) -/

/-- At every width, a concatenation is the OR of its upper part shifted into place and its lower part. -/
theorem setWidth_append_eq_or {n m : Nat} (x : BitVec n) (y : BitVec m) (w : Nat) :
    (x ++ y).setWidth w = x.setWidth w <<< m ||| y.setWidth w := by
  ext i hi
  simp only [BitVec.getElem_setWidth, BitVec.getLsbD_append, BitVec.getElem_or, BitVec.getElem_shiftLeft]
  rcases Nat.lt_or_ge i m with him | him
  · simp [him]
  · simp [Nat.not_lt.2 him, BitVec.getLsbD_of_ge y i him]

theorem assemble_eq_or (sign : BitVec 1) (expfield : BitVec 8) (mant : BitVec 23) :
    assemble sign expfield mant = sign.setWidth 32 <<< 31 ||| expfield.setWidth 32 <<< 23 ||| mant.setWidth 32 :=
  calc assemble sign expfield mant
      = (sign ++ expfield ++ mant).setWidth 32 := (BitVec.setWidth_eq _).symm
    _ = (sign.setWidth 32 <<< 8 ||| expfield.setWidth 32) <<< 23 ||| mant.setWidth 32 := by
      rw [setWidth_append_eq_or, setWidth_append_eq_or]
    _ = sign.setWidth 32 <<< 31 ||| expfield.setWidth 32 <<< 23 ||| mant.setWidth 32 := by
      rw [BitVec.shiftLeft_or_distrib, ← BitVec.shiftLeft_add]

/-- Settles O15: `toNat_assemble` with its product multiplied out, and `assemble_eq_or`. -/
theorem assembledWordIsTheSumOfItsFields : Obligations.AssembledWordIsTheSumOfItsFields := by
  unfold Obligations.AssembledWordIsTheSumOfItsFields
  refine fun sign expfield mant => ⟨?_, assemble_eq_or sign expfield mant⟩
  rw [toNat_assemble]
  ring

/-! ### The narrowing (R81) -/

/-- The balanced residue is the residue of `v` moved up by half the modulus, moved down again. -/
theorem trunc32_eq_emod (v : Int) : trunc32 v = (v + 2 ^ 31) % 2 ^ 32 - 2 ^ 31 := by
  rw [trunc32_eq_bmod, Int.bmod_def]
  split <;> omega

theorem trunc32_eq_self (v : Int) (hl : -2147483648 ≤ v) (hu : v ≤ 2147483647) : trunc32 v = v :=
  signedN_unsignedN_value v hl hu

/-- Settles O16: the wrap formula, and the identity on the values that fit. -/
theorem narrowingKeepsTheLow32Bits : Obligations.NarrowingKeepsTheLow32Bits := by
  unfold Obligations.NarrowingKeepsTheLow32Bits
  exact fun v => ⟨trunc32_eq_emod v, trunc32_eq_self v⟩

/-! ### The aligner (R76) -/

theorem align_natCast (v : Int) (n : Nat) : align v n = v / 2 ^ n := by
  rcases Nat.eq_zero_or_pos n with rfl | hn
  · simp [align_zero]
  · rw [align_of_pos v n (Int.natCast_pos.2 hn), Int.toNat_natCast]

theorem align_neg_natCast (v : Int) (n : Nat) : align v (-n) = v * 2 ^ n := by
  rw [align_of_nonpos v (-n) (by omega), Int.neg_neg, Int.toNat_natCast]

/-- Settles O13: one law a direction; a quotient by a power above `v` is 0. -/
theorem alignShiftsBySignOfAmount : Obligations.AlignShiftsBySignOfAmount := by
  unfold Obligations.AlignShiftsBySignOfAmount
  intro v n hv
  refine ⟨align_natCast v n, align_neg_natCast v n, align_zero v, fun hlt => ?_⟩
  rw [align_natCast, Int.ediv_eq_zero_of_lt hv hlt]

end Sys2Proof.Machine
end

section
/-! TOFIX (41_to_fixed_point.md): the fields and the zero test under the masks, the paths by the chosen scaling, and the
statements they settle. -/

namespace Sys2Proof.Machine

open Sys2Proof.Safety

/-! ### The sign and the magnitude bits under their masks (R53, R91) -/

/-- A word is its sign bit above the 31 bits the zero test looks at. -/
theorem signField_append (x : Word) : signField x ++ x.extractLsb' 0 31 = x := BitVec.extractLsb'_append_extractLsb'

theorem signField_eq_zero_or_one (x : Word) : signField x = 0 ∨ signField x = 1 := by
  generalize signField x = sign
  revert sign
  decide

/-- The sign mask keeps the sign bit in place and clears the bits below it. -/
theorem and_signMask (x : Word) : x &&& 0x80000000#32 = signField x ++ 0#31 := by
  have hmask : 0x80000000#32 = BitVec.allOnes 1 ++ 0#31 := by decide
  calc x &&& 0x80000000#32
      = (signField x ++ x.extractLsb' 0 31) &&& (BitVec.allOnes 1 ++ 0#31) := by rw [signField_append, hmask]
    _ = signField x ++ 0#31 := by rw [BitVec.and_append, BitVec.and_allOnes, BitVec.and_zero]

/-- The mask of the 31 magnitude bits clears the sign bit and nothing else. -/
theorem and_magnitudeMask (x : Word) : x &&& 0x7FFFFFFF#32 = 0#1 ++ x.extractLsb' 0 31 := by
  have hmask : 0x7FFFFFFF#32 = 0#1 ++ BitVec.allOnes 31 := by decide
  calc x &&& 0x7FFFFFFF#32
      = (signField x ++ x.extractLsb' 0 31) &&& (0#1 ++ BitVec.allOnes 31) := by rw [signField_append, hmask]
    _ = 0#1 ++ x.extractLsb' 0 31 := by rw [BitVec.and_append, BitVec.and_allOnes, BitVec.and_zero]

theorem and_signMask_ne_zero_iff (x : Word) : x &&& 0x80000000#32 ≠ 0 ↔ signField x = 1 := by
  rw [and_signMask]
  rcases signField_eq_zero_or_one x with h | h <;> rw [h] <;> decide

theorem isZeroFloat_iff_extractLsb' (x : Word) : isZeroFloat x = true ↔ x.extractLsb' 0 31 = 0#31 := beq_iff_eq

/-- The zero test as the mask of R98. -/
theorem isZeroFloat_iff_and_magnitudeMask (x : Word) : isZeroFloat x = true ↔ x &&& 0x7FFFFFFF#32 = 0 := by
  have hzero : (0 : Word) = 0#1 ++ 0#31 := by decide
  rw [isZeroFloat_iff_extractLsb', and_magnitudeMask, hzero, BitVec.append_right_inj]

/-- A word the zero test passes is its sign bit alone, so it is one of two (R91). -/
theorem isZeroFloat_iff_eq_or_eq (x : Word) : isZeroFloat x = true ↔ x = 0x00000000#32 ∨ x = 0x80000000#32 := by
  constructor
  · intro hz
    have hx := signField_append x
    rw [(isZeroFloat_iff_extractLsb' x).1 hz] at hx
    rcases signField_eq_zero_or_one x with h | h
    · exact .inl (by rw [← hx, h]; decide)
    · exact .inr (by rw [← hx, h]; decide)
  · rintro (rfl | rfl) <;> decide

/-! ### The exponent and the significand under their masks (R53, R54) -/

theorem toNat_and_expMask (x : Word) : ((x &&& 0x7F800000#32) >>> 23).toNat = (expField x).toNat := by
  obtain ⟨-, hexp, -, -⟩ := fieldsAreCutByTheMasks x
  calc ((x &&& 0x7F800000#32) >>> 23).toNat
      = ((expField x).setWidth 32).toNat := congrArg BitVec.toNat hexp.symm
    _ = (expField x).toNat := BitVec.toNat_setWidth_of_le (by decide)

/-- The significand is the same number in the 32 bits of the masks and in the 24 bits of FloatBits. -/
theorem toNat_and_mantMask_or_implicitBit (x : Word) :
    ((x &&& 0x007FFFFF#32) ||| 0x00800000#32).toNat = (decompose x).mantissa.toNat := by
  obtain ⟨-, -, hmant, -⟩ := fieldsAreCutByTheMasks x
  have hbit : 0x00800000#32 = (Config.implicitBit.setWidth 24).setWidth 32 := by decide
  calc ((x &&& 0x007FFFFF#32) ||| 0x00800000#32).toNat
      = ((mantField x).setWidth 32 ||| 0x00800000#32).toNat := by rw [hmant]; rfl
    _ = ((decompose x).mantissa.setWidth 32).toNat := by
      rw [decompose, BitVec.setWidth_or, BitVec.setWidth_setWidth (by decide), ← hbit]
    _ = (decompose x).mantissa.toNat := BitVec.toNat_setWidth_of_le (by decide)

/-! ### The paths by the chosen scaling (R93 to R97) -/

/-- The chosen scaling is negative from exponent 31 on (R94). -/
theorem chooseScaling_neg_iff (e : Int) : chooseScaling e < 0 ↔ 31 ≤ e := by
  simp only [chooseScaling, Config.scalingCap]; omega

/-- The saturation path, by the scaling that leads to it (R94). -/
theorem tofix_of_chooseScaling_neg (x : Word) (h : chooseScaling (decompose x).exponent < 0) :
    tofix x = saturate (signField x) := by
  rw [chooseScaling_neg_iff, decompose_exponent] at h
  exact tofix_of_le x (by omega)

/-- The shift path, whatever the exponent (R95 to R97). -/
theorem tofix_of_chooseScaling_nonneg (x : Word) (hz : isZeroFloat x ≠ true)
    (h : 0 ≤ chooseScaling (decompose x).exponent) :
    tofix x =
      { value := applySign (signField x) (align (decompose x).mantissa.toNat
          (tofixShift (decompose x).exponent (chooseScaling (decompose x).exponent))),
        scaling := chooseScaling (decompose x).exponent } := by
  rw [tofix, if_neg hz, tofixBits, if_neg (Int.not_lt.2 h), decompose_sign]

theorem saturate_of_eq_one (sign : BitVec 1) (h : sign = 1) : saturate sign = FixedPoint.min := if_pos h

theorem saturate_of_ne_one (sign : BitVec 1) (h : sign ≠ 1) : saturate sign = FixedPoint.max := if_neg h

theorem applySign_of_eq_one (sign : BitVec 1) (m : Int) (h : sign = 1) : applySign sign m = -m := if_pos h

theorem applySign_of_ne_one (sign : BitVec 1) (m : Int) (h : sign ≠ 1) : applySign sign m = m := if_neg h

/-- On a magnitude, `align` is a quotient or a multiple of natural numbers. -/
theorem align_natCast_eq_ite (n : Nat) (s : Int) :
    align n s = ((if 0 < s then n / 2 ^ s.toNat else n * 2 ^ (-s).toNat : Nat) : Int) := by
  split
  case isTrue h => rw [align_of_pos _ _ h]; push_cast; rfl
  case isFalse h => rw [align_of_nonpos _ _ (Int.not_lt.1 h)]; push_cast; rfl

/-- TOFIX writes the pair of `tofix` on the result ports and nothing else (R98). -/
theorem exec_tofix (x : Word) (s : State) :
    exec (.tofix x) s = .next { s with outputs := fixedOutputs (tofix x) } := execTofix_eq x s

/-- Settles O17: the masks cut out the fields of `decompose`, and each clause is one path of `tofix`. -/
theorem tofixFollowsItsPseudocode : Obligations.TofixFollowsItsPseudocode := by
  unfold Obligations.TofixFollowsItsPseudocode
  intro x negative exponent mantissa scaling shift m
  have hneg : negative ↔ signField x = 1 := and_signMask_ne_zero_iff x
  have hexp : exponent = (decompose x).exponent := by
    rw [decompose_exponent, ← toNat_and_expMask]
  have hscl : scaling = chooseScaling (decompose x).exponent := congrArg chooseScaling hexp
  have hm : align (decompose x).mantissa.toNat
      (tofixShift (decompose x).exponent (chooseScaling (decompose x).exponent)) = m := by
    rw [← hscl, ← hexp, ← toNat_and_mantMask_or_implicitBit]
    exact align_natCast_eq_ite mantissa shift
  have hzero := isZeroFloat_iff_and_magnitudeMask x
  rw [hneg, hscl, ← hm]
  refine ⟨fun hz => tofix_of_zero x (hzero.2 hz), fun _ hs h => ?_, fun _ hs h => ?_, fun hz hs h => ?_,
    fun hz hs h => ?_, fun _ => exec_tofix x⟩
  · rw [tofix_of_chooseScaling_neg x hs, saturate_of_eq_one _ h]; rfl
  · rw [tofix_of_chooseScaling_neg x hs, saturate_of_ne_one _ h]; rfl
  · rw [tofix_of_chooseScaling_nonneg x (mt hzero.1 hz) hs, applySign_of_eq_one _ _ h]
  · rw [tofix_of_chooseScaling_nonneg x (mt hzero.1 hz) hs, applySign_of_ne_one _ _ h]

/-- Settles O18: `isZeroFloat_iff_eq_or_eq`, and the zero path of `tofix`. -/
theorem tofixOfAZeroPatternIsZERO : Obligations.TofixOfAZeroPatternIsZERO := by
  unfold Obligations.TofixOfAZeroPatternIsZERO
  refine ⟨isZeroFloat_iff_eq_or_eq, fun x s hx => ?_⟩
  rw [exec_tofix, tofix_of_zero x ((isZeroFloat_iff_eq_or_eq x).2 hx)]

/-- Settles O19: the saturation path of `tofix`, with the port patterns of MIN and MAX. -/
theorem tofixSaturatesByTheSign : Obligations.TofixSaturatesByTheSign := by
  unfold Obligations.TofixSaturatesByTheSign
  intro x h
  have hmin (hs : signField x = 1) : tofix x = FixedPoint.min :=
    (tofix_of_chooseScaling_neg x h).trans (saturate_of_eq_one _ hs)
  have hmax (hs : signField x = 0) : tofix x = FixedPoint.max :=
    (tofix_of_chooseScaling_neg x h).trans (saturate_of_ne_one _ (by rw [hs]; decide))
  have houtMin : fixedOutputs FixedPoint.min = { resVal := 0x80000000#32, resScl := 0 } := by decide
  have houtMax : fixedOutputs FixedPoint.max = { resVal := 0x7FFFFFFF#32, resScl := 0 } := by decide
  refine ⟨hmin, hmax, fun _ s => ⟨fun hs => ?_, fun hs => ?_⟩⟩
  · rw [exec_tofix, hmin hs, houtMin]
  · rw [exec_tofix, hmax hs, houtMax]

end Sys2Proof.Machine
end

section
/-! FROMFIX (42_from_fixed_point.md): the magnitude, the fields as numbers, the range of the normalized magnitude, and the
statements they settle. -/

namespace Sys2Proof.Machine

/-! ### The magnitude (R113) -/

/-- The magnitude unit writes the natural number `|value|`. -/
theorem mag32_eq_ofNat_natAbs (v : Int) : mag32 v = BitVec.ofNat 32 v.natAbs := BitVec.ofInt_natCast 32 v.natAbs

/-- Only a zero value has the zero magnitude, among the values that fit their port. -/
theorem mag32_ne_zero (v : Int) (hfits : v.natAbs < 2 ^ 32) (h : v ≠ 0) : mag32 v ≠ 0 := by
  intro hmag
  have hnat := toNat_mag32 v hfits
  rw [hmag] at hnat
  exact h (Int.natAbs_eq_zero.1 hnat.symm)

/-! ### The normalized magnitude (R116) -/

/-- Shifting left, the leading 1 of a word of at most 24 used bits comes to bit 23. -/
theorem mul_two_pow_bounds (m u : Nat) (hu : 1 ≤ u) (h24 : u ≤ 24) (hl : 2 ^ (u - 1) ≤ m) (hlt : m < 2 ^ u) :
    2 ^ 23 ≤ m * 2 ^ (24 - u) ∧ m * 2 ^ (24 - u) < 2 ^ 24 := by
  have hlow : 2 ^ (u - 1) * 2 ^ (24 - u) = 2 ^ 23 := by rw [← Nat.pow_add]; congr 1; omega
  have hhigh : 2 ^ u * 2 ^ (24 - u) = 2 ^ 24 := by rw [← Nat.pow_add]; congr 1; omega
  rw [← hlow, ← hhigh]
  exact ⟨Nat.mul_le_mul_right _ hl, Nat.mul_lt_mul_of_pos_right hlt (Nat.two_pow_pos _)⟩

/-- Shifting right, the leading 1 of a word of more than 24 used bits comes to bit 23. -/
theorem div_two_pow_bounds (m u : Nat) (h24 : 24 < u) (hl : 2 ^ (u - 1) ≤ m) (hlt : m < 2 ^ u) :
    2 ^ 23 ≤ m / 2 ^ (u - 24) ∧ m / 2 ^ (u - 24) < 2 ^ 24 := by
  have hlow : 2 ^ 23 * 2 ^ (u - 24) = 2 ^ (u - 1) := by rw [← Nat.pow_add]; congr 1; omega
  have hhigh : 2 ^ 24 * 2 ^ (u - 24) = 2 ^ u := by rw [← Nat.pow_add]; congr 1; omega
  rw [Nat.le_div_iff_mul_le (Nat.two_pow_pos _), Nat.div_lt_iff_lt_mul (Nat.two_pow_pos _), hlow, hhigh]
  exact ⟨hl, hlt⟩

/-- The normalized magnitude has exactly 24 bits. -/
theorem normalized_bounds (mag : Word) (h : mag ≠ 0) : 2 ^ 23 ≤ normalized mag ∧ normalized mag < 2 ^ 24 := by
  have hl := two_pow_cub32_sub_one_le_toNat mag h
  have hlt := toNat_lt_two_pow_cub32 mag
  rcases le_or_gt (cub32 mag) 24 with h24 | h24
  · have hbounds := mul_two_pow_bounds _ _ (Nat.one_le_iff_ne_zero.2 (cub32_ne_zero mag h)) h24 hl hlt
    rw [normalized_of_le mag h24]
    exact_mod_cast hbounds
  · have hbounds := div_two_pow_bounds _ _ h24 hl hlt
    rw [normalized_of_lt mag h24]
    exact_mod_cast hbounds

/-- The normalized magnitude in natural numbers, by the amount of the spec's shift. -/
theorem normalized_eq_ite (mag : Word) (shift : Int) (hshift : shift = (cub32 mag : Int) - 24) :
    normalized mag =
      ((if 0 < shift then mag.toNat / 2 ^ shift.toNat else mag.toNat * 2 ^ (-shift).toNat : Nat) : Int) := by
  have hamount : normalizingShift (cub32 mag) = shift := by
    rw [hshift, normalizingShift, Config.mantissaBits]; omega
  rw [normalized, hamount, align_natCast_eq_ite]

/-! ### The fields and the word as numbers (R116, R117) -/

theorem toNat_mantissaFieldOf (mag : Word) : ((mantissaFieldOf mag).toNat : Int) = normalized mag % 2 ^ 23 :=
  toNat_unsignedN 23 (normalized mag)

theorem toNat_exponentFieldOf (exp : Int) : (exponentFieldOf exp).toNat = ((exp + 127) % 256).toNat := by
  have hfield := toNat_unsignedN 8 (exp + 127)
  rw [exponentFieldOf, Config.exponentBias]
  omega

/-- The word of a nonzero value as the sum of its fields in place. -/
theorem toNat_fromfix_of_ne_zero (p : FixedPoint) (h : p.value ≠ 0) :
    (fromfix p).toNat =
      (signOf p.value).toNat * 2 ^ 31 +
        (exponentFieldOf (reconstructedExponent (cub32 (mag32 p.value)) p.scaling)).toNat * 2 ^ 23 +
        (mantissaFieldOf (mag32 p.value)).toNat := by
  rw [fromfix_of_ne_zero p h, toNat_assemble]
  ring

/-- FROMFIX writes the word of `fromfix` and scaling 0 on the result ports and nothing else (R110, R118). -/
theorem exec_fromfix (p : FixedPoint) (s : State) :
    exec (.fromfix p) s = .next { s with outputs := { resVal := fromfix p, resScl := 0 } } := rfl

/-- Settles O29: `normalized_bounds` for the range of `a`, and the word as the sum of its three fields. -/
theorem fromfixFollowsItsPseudocode : Obligations.FromfixFollowsItsPseudocode := by
  unfold Obligations.FromfixFollowsItsPseudocode
  intro p s hwf sign mag usedBits exp shift a expfield
  obtain ⟨⟨hvl, hvu⟩, -⟩ := (FixedPoint.wf_iff p).1 hwf
  have hfits : p.value.natAbs < 2 ^ 32 := by omega
  have hused : cub32 (mag32 p.value) = usedBits := congrArg cub32 (mag32_eq_ofNat_natAbs p.value)
  have ha : normalized (mag32 p.value) = a := by
    rw [normalized_eq_ite _ shift (by rw [hused]), toNat_mag32 _ hfits]
  refine ⟨_, exec_fromfix p s, fun hz => by rw [fromfix_of_zero p hz]; rfl, fun hnz => ?_⟩
  obtain ⟨hlow, hhigh⟩ := normalized_bounds _ (mag32_ne_zero _ hfits hnz)
  rw [ha] at hlow hhigh
  have hexp : (exponentFieldOf (reconstructedExponent (cub32 (mag32 p.value)) p.scaling)).toNat = expfield := by
    rw [toNat_exponentFieldOf, hused]; rfl
  have hmant : (mantissaFieldOf (mag32 p.value)).toNat = a % 2 ^ 23 := by
    have hfield := toNat_mantissaFieldOf (mag32 p.value)
    rw [ha] at hfield
    exact_mod_cast hfield
  have hword : (fromfix p).toNat = sign * 2 ^ 31 + expfield * 2 ^ 23 + a % 2 ^ 23 := by
    rw [toNat_fromfix_of_ne_zero p hnz, toNat_signOf, hexp, hmant]
  refine ⟨by exact_mod_cast hlow, by exact_mod_cast hhigh, ?_⟩
  rw [← hword, BitVec.ofNat_toNat, BitVec.setWidth_eq]

/-- Settles O30: the zero path of `fromfix` does not look at the scaling. -/
theorem fromfixOfZeroIsPositiveZero : Obligations.FromfixOfZeroIsPositiveZero := by
  unfold Obligations.FromfixOfZeroIsPositiveZero
  intro scaling s
  rw [exec_fromfix, fromfix_of_zero _ rfl]
  rfl

end Sys2Proof.Machine
end

section
/-! MUL (43_multiply.md): the value as the narrowed product, the shift as a floor, the range of the shift amount, and the
statements they settle. -/

namespace Sys2Proof.Machine

open Sys2Proof.Safety

/-! ### The value and the scaling (R135, R137) -/

theorem mul_value (x y : FixedPoint) :
    (mul x y).value = trunc32 (shiftedProduct (wideProduct x y) (mulShift x y)) := rfl

theorem wideProduct_comm (x y : FixedPoint) : wideProduct x y = wideProduct y x := Int.mul_comm x.value y.value

theorem mulShift_comm (x y : FixedPoint) : mulShift x y = mulShift y x := Int.add_comm x.scaling y.scaling

theorem mul_value_comm (x y : FixedPoint) : (mul x y).value = (mul y x).value := by
  rw [mul_value, mul_value, wideProduct_comm, mulShift_comm]

/-- Settles O39: the product and the shift amount are symmetric in the operands, and the value depends on nothing else. -/
theorem operandOrderAffectsOnlyTheScaling : Obligations.OperandOrderAffectsOnlyTheScaling := by
  unfold Obligations.OperandOrderAffectsOnlyTheScaling
  exact fun x y => ⟨mul_scaling x y, mul_value_comm x y⟩

/-- Whatever it is given, the narrowing answers a signed 32-bit value (R81). -/
theorem trunc32_bounds (v : Int) : -2 ^ 31 ≤ trunc32 v ∧ trunc32 v ≤ 2 ^ 31 - 1 := by
  rw [trunc32_eq_emod]
  omega

/-- Settles O38: the laws of the narrowing, at the shifted product. -/
theorem mulWrapsWithoutSaturating : Obligations.MulWrapsWithoutSaturating := by
  unfold Obligations.MulWrapsWithoutSaturating
  intro x y
  rw [mul_value]
  exact ⟨trunc32_eq_self _, trunc32_eq_emod _, trunc32_bounds _⟩

/-! ### The pseudocode (R138) -/

/-- The arithmetic right shift is the floor of the rational quotient (R133). -/
theorem shiftedProduct_eq_floor (p s : Int) (h : 0 ≤ s) : shiftedProduct p s = ⌊(p : ℚ) / 2 ^ s.toNat⌋ := by
  have hfloor := Rat.floor_intCast_div_natCast p (2 ^ s.toNat)
  push_cast at hfloor
  rw [shiftedProduct_of_nonneg p s h, hfloor]

/-- Both directions of the shift, in the terms of the pseudocode (R133, R134). -/
theorem shiftedProduct_eq_ite (p s : Int) :
    shiftedProduct p s = if 0 ≤ s then ⌊(p : ℚ) / 2 ^ s.toNat⌋ else p * 2 ^ (-s).toNat := by
  split
  case isTrue h => exact shiftedProduct_eq_floor p s h
  case isFalse h => exact shiftedProduct_of_neg p s (Int.not_le.1 h)

/-- MUL writes the value of `mul` and the left operand's scaling on the result ports and nothing else (R130, R137). -/
theorem exec_mul (x y : FixedPoint) (s : State) :
    exec (.mul x y) s =
      .next { s with outputs := { resVal := BitVec.ofInt 32 (mul x y).value, resScl := BitVec.ofInt 8 x.scaling } } := rfl

/-- Settles O35: `exec_mul`, with the value as the wrapped shift of the product. -/
theorem mulFollowsItsPseudocode : Obligations.MulFollowsItsPseudocode := by
  unfold Obligations.MulFollowsItsPseudocode
  intro x y s _ _ P sh Q
  have hQ : shiftedProduct (wideProduct x y) (mulShift x y) = Q := shiftedProduct_eq_ite P sh
  rw [exec_mul, mul_value, hQ, trunc32_eq_emod]

/-! ### The shift amount (R132) -/

/-- TOFIX answers a scaling of 0 to 30, and MUL hands on its left operand's. -/
theorem scaling_bounds_of_lifecycleReachable (p : FixedPoint) (h : LifecycleReachable p) :
    0 ≤ p.scaling ∧ p.scaling ≤ 30 := by
  induction h with
  | ofTofix x => exact tofix_scaling_bounds x
  | ofMul x y _ _ ihx _ => rwa [mul_scaling]

/-- Settles O54: the sum of two scalings, each in the range of its port or of the lifecycle. -/
theorem mulShiftAmountIsTheSumOfTheScalings : Obligations.MulShiftAmountIsTheSumOfTheScalings := by
  unfold Obligations.MulShiftAmountIsTheSumOfTheScalings
  refine ⟨fun x y => ⟨rfl, fun hx hy => ?_⟩, fun x y hx hy => ?_⟩
  · obtain ⟨-, hxl, hxu⟩ := (FixedPoint.wf_iff x).1 hx
    obtain ⟨-, hyl, hyu⟩ := (FixedPoint.wf_iff y).1 hy
    rw [mulShift]; omega
  · obtain ⟨hxl, hxu⟩ := scaling_bounds_of_lifecycleReachable x hx
    obtain ⟨hyl, hyu⟩ := scaling_bounds_of_lifecycleReachable y hy
    rw [mulShift]; omega

end Sys2Proof.Machine
end

section
/-! The decoder and the encoder as inverse to each other (30_encoding.md): the operands as the ports carry them, and the
statements they settle. -/

namespace Sys2Proof

/-! ### Operands read from their ports (R55, R56) -/

theorem fixedOperand_eq_toInt (val : Word) (scl : SclWord) :
    fixedOperand val scl = { value := val.toInt, scaling := scl.toInt } := by
  rw [fixedOperand, Machine.signedN_eq_toInt, Machine.signedN_eq_toInt]

/-- A two's complement reading is in the range of its port. -/
theorem wf_fixedOperand (val : Word) (scl : SclWord) : (fixedOperand val scl).wf = true := by
  have hvl := val.le_toInt
  have hvu := val.toInt_lt
  have hsl := scl.le_toInt
  have hsu := scl.toInt_lt
  rw [fixedOperand_eq_toInt, FixedPoint.wf_iff]
  dsimp only
  omega

theorem wf_decode (c : CommandWord) : (decode c).wf = true := by
  rcases opWord_cases (opField c) with h | h | h | h
  · rw [decode_of_op_zero c h]; rfl
  · rw [decode_of_op_one c h]; exact wf_fixedOperand _ _
  · rw [decode_of_op_two c h, Instr.wf, wf_fixedOperand, wf_fixedOperand]; rfl
  · rw [decode_of_op_three c h]; rfl

/-- Settles O7: the reading is the library's `toInt`, whose bounds are the port ranges. -/
theorem decodedOperandsFitTheirPorts : Obligations.DecodedOperandsFitTheirPorts :=
  ⟨fixedOperand_eq_toInt, wf_decode⟩

/-! ### The round trips (R57, R60, R65) -/

theorem encode_tofix (x : Word) : encode (.tofix x) = commandOf 0 0 0 0 x := rfl

theorem encode_fromfix (x : FixedPoint) : encode (.fromfix x) = commandOf 1 0 0 (scalingPattern x) (valuePattern x) := rfl

theorem encode_mul (x y : FixedPoint) :
    encode (.mul x y) = commandOf 2 (scalingPattern y) (valuePattern y) (scalingPattern x) (valuePattern x) := rfl

theorem encode_reserved : encode .reserved = commandOf 3 0 0 0 0 := rfl

/-- Settles O1: each operation's number selects its own decoder, and every operand is read back from its field. -/
theorem decodeInvertsEncode : Obligations.DecodeInvertsEncode := by
  unfold Obligations.DecodeInvertsEncode
  intro i hwf
  cases i with
  | tofix x => rw [encode_tofix, decode_of_op_zero _ (opField_commandOf ..), aValField_commandOf]
  | fromfix x =>
    rw [encode_fromfix, decode_of_op_one _ (opField_commandOf ..), aValField_commandOf, aSclField_commandOf,
      fixedOperand_patterns x hwf]
  | mul x y =>
    obtain ⟨hx, hy⟩ := Bool.and_eq_true_iff.1 hwf
    rw [encode_mul, decode_of_op_two _ (opField_commandOf ..), aValField_commandOf, aSclField_commandOf,
      bValField_commandOf, bSclField_commandOf, fixedOperand_patterns x hx, fixedOperand_patterns y hy]
  | reserved => rw [encode_reserved, decode_of_op_three _ (opField_commandOf ..)]

theorem commandOf_fields (c : CommandWord) :
    commandOf (opField c) (bSclField c) (bValField c) (aSclField c) (aValField c) = c := Machine.commandOn_inputsOf c

theorem commandOf_and (op op' : OpWord) (bScl bScl' : SclWord) (bVal bVal' : Word) (aScl aScl' : SclWord)
    (aVal aVal' : Word) :
    commandOf op bScl bVal aScl aVal &&& commandOf op' bScl' bVal' aScl' aVal' =
      commandOf (op &&& op') (bScl &&& bScl') (bVal &&& bVal') (aScl &&& aScl') (aVal &&& aVal') := by
  simp only [commandOf, ← BitVec.and_append]

/-- A command under a mask is each of its fields under that field's part of the mask. -/
theorem and_commandOf (c : CommandWord) (op : OpWord) (bScl : SclWord) (bVal : Word) (aScl : SclWord) (aVal : Word) :
    c &&& commandOf op bScl bVal aScl aVal =
      commandOf (opField c &&& op) (bSclField c &&& bScl) (bValField c &&& bVal) (aSclField c &&& aScl)
        (aValField c &&& aVal) := by
  rw [← commandOf_and, commandOf_fields]

/-- Settles O2: each mask is ones on the fields its operation reads and zeros on the others. -/
theorem encodeOfDecodeClearsIgnoredFields : Obligations.EncodeOfDecodeClearsIgnoredFields := by
  unfold Obligations.EncodeOfDecodeClearsIgnoredFields
  intro c
  obtain ⟨ha, has⟩ := patterns_fixedOperand (aValField c) (aSclField c)
  obtain ⟨hb, hbs⟩ := patterns_fixedOperand (bValField c) (bSclField c)
  rcases opWord_cases (opField c) with h | h | h | h
  case inl =>
    have hmask : 0x3000000000000FFFFFFFF#82 = commandOf (BitVec.allOnes 2) 0#8 0#32 0#8 (BitVec.allOnes 32) := by decide
    simp only [decode_of_op_zero c h, Instr.operation, encode_tofix]
    rw [hmask, and_commandOf, h]
    simp only [BitVec.and_allOnes, BitVec.and_zero, BitVec.ofNat_eq_ofNat]
  case inr.inl =>
    have hmask : 0x30000000000FFFFFFFFFF#82 =
        commandOf (BitVec.allOnes 2) 0#8 0#32 (BitVec.allOnes 8) (BitVec.allOnes 32) := by decide
    simp only [decode_of_op_one c h, Instr.operation, encode_fromfix, ha, has]
    rw [hmask, and_commandOf, h]
    simp only [BitVec.and_allOnes, BitVec.and_zero, BitVec.ofNat_eq_ofNat]
  case inr.inr.inl =>
    have hmask : 0x3FFFFFFFFFFFFFFFFFFFF#82 = BitVec.allOnes 82 := by decide
    simp only [decode_of_op_two c h, Instr.operation, encode_mul, ha, has, hb, hbs]
    rw [hmask, BitVec.and_allOnes, ← h, commandOf_fields]
  case inr.inr.inr =>
    have hmask : 0x300000000000000000000#82 = commandOf (BitVec.allOnes 2) 0#8 0#32 0#8 0#32 := by decide
    simp only [decode_of_op_three c h, Instr.operation, encode_reserved]
    rw [hmask, and_commandOf, h]
    simp only [BitVec.and_allOnes, BitVec.and_zero, BitVec.ofNat_eq_ofNat]

/-- Settles O8: six fixed words, each through the table-word decoder. -/
theorem printedCommandWordsDecode : Obligations.PrintedCommandWordsDecode := by
  unfold Obligations.PrintedCommandWordsDecode
  decide

end Sys2Proof

namespace Sys2Proof.Machine

/-! ### The field decoder and the leading-zero counter (R71, R72, R74) -/

theorem signField_eq_one_iff (b : Word) : signField b = 1 ↔ 2 ^ 31 ≤ b.toNat := by
  have hlt := b.isLt
  have hone : (1 : BitVec 1).toNat = 1 := rfl
  rw [← BitVec.toNat_inj, toNat_signField, hone]
  omega

/-- The exponent and the significand determine their fields, since bias and implicit bit are constants. -/
theorem decompose_injective : Function.Injective decompose := by
  intro b c h
  have hsign : signField b = signField c := congrArg FloatBits.sign h
  have hexp : (decompose b).exponent = (decompose c).exponent := by rw [h]
  have hmant : (decompose b).mantissa.toNat = (decompose c).mantissa.toNat := by rw [h]
  rw [decompose_exponent, decompose_exponent] at hexp
  rw [toNat_decompose_mantissa, toNat_decompose_mantissa] at hmant
  apply BitVec.eq_of_toNat_eq
  rw [toNat_eq_fields b, toNat_eq_fields c, hsign]
  omega

/-- Settles O10: the fields as quotients and remainders, and `decompose_injective`. -/
theorem decomposeIsExactAndInjective : Obligations.DecomposeIsExactAndInjective := by
  unfold Obligations.DecomposeIsExactAndInjective
  refine ⟨fun b => ⟨signField_eq_one_iff b, ?_, ?_, ?_⟩, decompose_injective⟩
  · rw [decompose_exponent, toNat_expField]
  · rw [toNat_decompose_mantissa, toNat_mantField]
  · have hlt := (expField b).isLt
    rw [floatClass_eq_normal_iff, decompose_exponent]
    omega

/-- Every bit looked at is either a leading zero or at most as high as the highest set bit. -/
theorem leadingZerosBelow_add_usedBitsBelow (u : Word) (n : Nat) : leadingZerosBelow u n + usedBitsBelow u n = n := by
  induction n with
  | zero => rfl
  | succ n ih =>
    simp only [leadingZerosBelow, usedBitsBelow]
    split <;> omega

/-- Settles O12: the two counters together count all 32 bits. -/
theorem leadingZerosComplementUsedBits : Obligations.LeadingZerosComplementUsedBits := by
  unfold Obligations.LeadingZerosComplementUsedBits
  intro u
  have hsum := leadingZerosBelow_add_usedBitsBelow u 32
  rw [clz32, cub32]
  omega

end Sys2Proof.Machine
end

section
/-! The transaction and the run (10_state.md R31; 70_reset_and_hazards.md R180): what a step does with a pending command, the
record of a run, the run's invariant, and the statements they settle. -/

namespace Sys2Proof.Machine

open Sys2Proof.Safety

/-! ### One step -/

theorem step_of_pending_nil (s : State) (h : s.pending = []) : step s = .next s :=
  (step_eq_next_iff s s).2 (.inl ⟨h, rfl⟩)

theorem step_of_pending_cons (s : State) (c : CommandWord) (rest : List CommandWord) (h : s.pending = c :: rest) :
    step s = completeTransaction c (exec (decode c) (s.present c rest)) := by rw [step, h]

theorem step_of_blockFunction_eq_some (s : State) (c : CommandWord) (rest : List CommandWord) (o : Outputs)
    (h : s.pending = c :: rest) (ho : blockFunction c = some o) :
    step s = .next (((s.present c rest).drive o).record c) :=
  (step_eq_next_iff s _).2 (.inr ⟨c, rest, o, h, ho, rfl⟩)

/-- Every command but the reserved one has a result (R61). -/
theorem exists_blockFunction_eq_some (c : CommandWord) (h : opField c ≠ 3) : ∃ o, blockFunction c = some o := by
  rcases opWord_cases (opField c) with h0 | h1 | h2 | h3
  · exact ⟨_, blockFunction_of_op_zero c h0⟩
  · exact ⟨_, blockFunction_of_op_one c h1⟩
  · exact ⟨_, blockFunction_of_op_two c h2⟩
  · exact absurd h3 h

/-- Settles O43: the reserved command by its arm's refusal, every other one by `exists_blockFunction_eq_some`. -/
theorem onlyTheReservedOperationIsRefused : Obligations.OnlyTheReservedOperationIsRefused := by
  unfold Obligations.OnlyTheReservedOperationIsRefused
  have hrefused (s : State) : exec .reserved s = .refused .reservedOperation :=
    (exec_eq_refused_iff ..).2 ⟨rfl, rfl⟩
  refine ⟨hrefused, fun s c rest hp => ⟨fun hop => ?_, fun hop => ?_⟩⟩
  · rw [step_of_pending_cons s c rest hp, decode_of_op_three c hop, completeTransaction_eq_refused_iff, hrefused]
  · obtain ⟨o, ho⟩ := exists_blockFunction_eq_some c hop
    exact ⟨_, step_of_blockFunction_eq_some s c rest o hp ho⟩

/-- Settles O44: `step_of_pending_cons`, and what completing a transaction adds to either outcome. -/
theorem stepRunsTheDecodedInstruction : Obligations.StepRunsTheDecodedInstruction := by
  unfold Obligations.StepRunsTheDecodedInstruction
  rintro s c rest hp presented rfl
  rw [step_of_pending_cons s c rest hp]
  exact ⟨fun t ht => (completeTransaction_eq_next_iff ..).2 ⟨t, ht, rfl⟩,
    fun r hr => (completeTransaction_eq_refused_iff ..).2 hr⟩

/-- Settles O45: the first case of `step_eq_next_iff`. -/
theorem stepWithNothingPendingChangesNothing : Obligations.StepWithNothingPendingChangesNothing :=
  step_of_pending_nil

/-- Settles O46: the state of `step_of_blockFunction_eq_some`, written out. -/
theorem transactionDrivesFOfItsCommand : Obligations.TransactionDrivesFOfItsCommand :=
  step_of_blockFunction_eq_some

/-- Settles O47: an operation that completes only drives its result (`exec_eq_next_iff`). -/
theorem operationsWriteOnlyTheResultPorts : Obligations.OperationsWriteOnlyTheResultPorts := by
  unfold Obligations.OperationsWriteOnlyTheResultPorts
  intro i s t h
  obtain ⟨o, -, rfl⟩ := (exec_eq_next_iff i s t).1 h
  exact ⟨drive_inputs s o, drive_pending s o, drive_transactions s o⟩

/-- What a step with a pending command answers is that command, `F` of it, and the pair recorded. -/
theorem step_eq_next_of_pending_cons (s t : State) (c : CommandWord) (rest : List CommandWord) (hp : s.pending = c :: rest)
    (h : step s = .next t) : ∃ o, blockFunction c = some o ∧ t = ((s.present c rest).drive o).record c := by
  rcases (step_eq_next_iff s t).1 h with ⟨hnil, -⟩ | ⟨c', rest', o, hp', ho, rfl⟩
  · rw [hp] at hnil; cases hnil
  · rw [hp] at hp'; cases hp'
    exact ⟨o, ho, rfl⟩

/-- Settles O48: both machines drive `F` of the command they share. -/
theorem resultDependsOnTheCommandAlone : Obligations.ResultDependsOnTheCommandAlone := by
  unfold Obligations.ResultDependsOnTheCommandAlone
  intro s u c rs ru hs hu t ht
  obtain ⟨o, ho, rfl⟩ := step_eq_next_of_pending_cons s t c rs hs ht
  exact ⟨_, step_of_blockFunction_eq_some u c ru o hu ho, rfl, rfl⟩

/-! ### A run (R180) -/

/-- Settles O49, by induction over the pending list: a step takes its head and records `F` of it. -/
theorem runRecordsFOfEachCommand : Obligations.RunRecordsFOfEachCommand := by
  unfold Obligations.RunRecordsFOfEachCommand
  intro cs
  induction cs with
  | nil => exact fun s hp _ => ⟨s, [], run_zero s, hp, rfl, (List.append_nil _).symm⟩
  | cons c rest ih =>
    intro s hp hops
    obtain ⟨hop, hrest⟩ := List.forall_mem_cons.1 hops
    obtain ⟨o, ho⟩ := exists_blockFunction_eq_some c hop
    obtain ⟨t, rs, hrun, hdone, hresults, hrecord⟩ := ih (((s.present c rest).drive o).record c) rfl hrest
    refine ⟨t, o :: rs, ?_, hdone, ?_, ?_⟩
    · rw [List.length_cons, run_succ_of_next _ _ _ (step_of_blockFunction_eq_some s c rest o hp ho), hrun]
    · rw [List.map_cons, List.map_cons, ho, hresults]
    · rw [hrecord, record_transactions, List.append_assoc]; rfl

/-! ### The invariant of a run (R31, R170, R180) -/

/-- Settles O50: `F` of the word of zeros is ZERO, and nothing is recorded. -/
theorem runInvariantHoldsAtReset : Obligations.RunInvariantHoldsAtReset where
  outputs := by unfold OutputsFollowInputs; decide
  record := fun _ ht => absurd ht List.not_mem_nil
  ports := fun _ ht => by cases ht

/-- A transaction establishes the first and third part and adds one pair to the second. -/
theorem runInvariant_of_transaction (s : State) (c : CommandWord) (rest : List CommandWord) (o : Outputs)
    (hrecord : RecordFollowsF s) (ho : blockFunction c = some o) :
    RunInvariant (((s.present c rest).drive o).record c) where
  outputs := by
    rw [OutputsFollowInputs, record_inputs, drive_inputs, present_inputs, commandOn_inputsOf, record_outputs, drive_outputs, ho]
  record := by
    intro t ht
    rw [record_transactions, List.mem_append, List.mem_singleton] at ht
    rcases ht with hold | rfl
    · exact hrecord t hold
    · exact ho
  ports := by
    intro t ht
    rw [record_transactions, List.getLast?_concat, Option.some_inj] at ht
    subst ht
    exact ⟨commandOn_inputsOf c, rfl⟩

/-- Settles O51: a step changes nothing or is a transaction, which needs only the record's part of the invariant. -/
theorem everyStepKeepsTheRunInvariant : Obligations.EveryStepKeepsTheRunInvariant := by
  unfold Obligations.EveryStepKeepsTheRunInvariant
  intro s t hinv hstep
  rcases (step_eq_next_iff s t).1 hstep with ⟨-, rfl⟩ | ⟨c, rest, o, -, ho, rfl⟩
  · exact hinv
  · exact runInvariant_of_transaction s c rest o hinv.record ho

end Sys2Proof.Machine
end

section
/-! The properties of TOFIX (41_to_fixed_point.md R99, R100): one form for every operand off the saturation path, the real
numbers of operand and result, and the statements they settle. -/

namespace Sys2Proof.Machine

open Sys2Proof.Safety

/-! ### The sign applied to a magnitude (R97) -/

theorem abs_applySign (sign : BitVec 1) (m : Int) : |applySign sign m| = |m| := by
  rw [applySign, neg]; split
  · exact abs_neg m
  · rfl

theorem applySign_mul (sign : BitVec 1) (m n : Int) : applySign sign (m * n) = applySign sign m * n := by
  rw [applySign, applySign, neg, neg]; split
  · exact (Int.neg_mul m n).symm
  · rfl

theorem applySign_zero (sign : BitVec 1) : applySign sign 0 = 0 := by
  rw [applySign]; split <;> rfl

/-- The sign bit as the factor of R11. -/
theorem applySign_eq_neg_one_pow_mul (sign : BitVec 1) (m : Int) : applySign sign m = (-1) ^ sign.toNat * m := by
  rcases BitVec.eq_zero_or_eq_one sign with rfl | rfl <;> simp [applySign, neg]

/-! ### The paths off saturation as one -/

/-- The magnitude TOFIX gives a nonzero operand off the saturation path: below exponent -7 low bits are shifted out, above it
the significand is shifted left, by 7 at most (R95, R96). -/
def shiftedSignificand (x : Word) : Nat :=
  (decompose x).mantissa.toNat / 2 ^ (120 - (expField x).toNat) * 2 ^ min ((expField x).toNat - 120) 7

/-- From exponent -7 up no bit is shifted out. -/
theorem shiftedSignificand_of_le (x : Word) (h : 120 ≤ (expField x).toNat) :
    shiftedSignificand x = (decompose x).mantissa.toNat * 2 ^ min ((expField x).toNat - 120) 7 := by
  rw [shiftedSignificand, Nat.sub_eq_zero_of_le h, Nat.pow_zero, Nat.div_one]

/-- Below exponent -7 the significand is only shifted right. -/
theorem shiftedSignificand_of_lt (x : Word) (h : (expField x).toNat < 120) :
    shiftedSignificand x = (decompose x).mantissa.toNat / 2 ^ (120 - (expField x).toNat) := by
  rw [shiftedSignificand, Nat.sub_eq_zero_of_le h.le, Nat.zero_min, Nat.pow_zero, Nat.mul_one]

theorem tofix_of_lt (x : Word) (hz : isZeroFloat x = false) (h : (expField x).toNat < 158) :
    tofix x = { value := applySign (signField x) (shiftedSignificand x),
                scaling := min (157 - (expField x).toNat) 30 } := by
  rcases Nat.lt_or_ge (expField x).toNat 127 with hneg | hnonneg
  · have hscl : min (157 - ((expField x).toNat : Int)) 30 = 30 := by omega
    rw [tofix_of_neg x hz hneg, hscl]
    rcases Nat.lt_or_ge (expField x).toNat 120 with hlt | hge
    · have hamount : (120 : Int) - (expField x).toNat = (120 - (expField x).toNat : Nat) := by omega
      rw [hamount, align_natCast, shiftedSignificand_of_lt x hlt]
      push_cast; rfl
    · have hamount : (120 : Int) - (expField x).toNat = -(min ((expField x).toNat - 120) 7 : Nat) := by omega
      rw [hamount, align_neg_natCast, shiftedSignificand_of_le x hge]
      push_cast; rfl
  · have hscl : min (157 - ((expField x).toNat : Int)) 30 = 157 - (expField x).toNat := by omega
    have hshift : min ((expField x).toNat - 120) 7 = 7 := by omega
    rw [tofix_of_nonneg x hnonneg h, hscl, shiftedSignificand_of_le x (by omega), hshift]
    push_cast; rfl

/-- The left shift is by 7 at most, so the low seven bits of MAX stay out of reach (R96). -/
theorem shiftedSignificand_le (x : Word) : shiftedSignificand x ≤ 2 ^ 31 - 128 := by
  obtain ⟨-, hlt⟩ := mantissa_bounds x
  calc shiftedSignificand x
      ≤ (decompose x).mantissa.toNat * 2 ^ 7 :=
        Nat.mul_le_mul (Nat.div_le_self _ _) (Nat.pow_le_pow_right (by decide) (min_le_right _ _))
    _ ≤ 2 ^ 31 - 128 := by omega

theorem abs_tofix_value_of_lt (x : Word) (hz : isZeroFloat x = false) (h : (expField x).toNat < 158) :
    |(tofix x).value| = shiftedSignificand x := by
  rw [tofix_of_lt x hz h, abs_applySign, Nat.abs_cast]

theorem abs_tofix_value_le (x : Word) (h : (expField x).toNat < 158) : |(tofix x).value| ≤ 2 ^ 31 - 128 := by
  cases hz : isZeroFloat x with
  | true => rw [tofix_of_zero x hz]; decide
  | false =>
    have hle := shiftedSignificand_le x
    rw [abs_tofix_value_of_lt x hz h]
    omega

theorem saturate_cases (sign : BitVec 1) : saturate sign = FixedPoint.min ∨ saturate sign = FixedPoint.max := by
  rw [saturate]; split
  · exact .inl rfl
  · exact .inr rfl

/-- Settles O21: saturation gives the two values, and `abs_tofix_value_le` keeps every other result below them. -/
theorem saturationIsVisibleInTheValue : Obligations.SaturationIsVisibleInTheValue := by
  unfold Obligations.SaturationIsVisibleInTheValue
  intro x
  rw [showsSaturation_iff]
  constructor
  · intro hshown
    by_contra hlt
    have hle := abs_le.1 (abs_tofix_value_le x (Nat.not_le.1 hlt))
    omega
  · intro hsat
    rw [tofix_of_le x hsat]
    rcases saturate_cases (signField x) with h | h <;> rw [h]
    · exact .inr rfl
    · exact .inl rfl

theorem wf_tofix (x : Word) : (tofix x).wf = true := by
  rcases Nat.lt_or_ge (expField x).toNat 158 with hlt | hsat
  · have hvalue := abs_le.1 (abs_tofix_value_le x hlt)
    have hscaling := tofix_scaling_bounds x
    rw [FixedPoint.wf_iff]
    omega
  · rw [tofix_of_le x hsat]
    rcases saturate_cases (signField x) with h | h <;> rw [h] <;> decide

/-- Settles O26: the ports' ranges, the scaling's range and the magnitude's bound. -/
theorem tofixResultsFitTheirPorts : Obligations.TofixResultsFitTheirPorts := by
  unfold Obligations.TofixResultsFitTheirPorts
  intro x
  obtain ⟨hl, hu⟩ := tofix_scaling_bounds x
  exact ⟨wf_tofix x, hl, hu, abs_tofix_value_le x⟩

/-! ### The real numbers of operand and result (R11) -/

theorem realF32_eq (x : Word) :
    realF32 x = (applySign (signField x) (decompose x).mantissa.toNat : Int) * (2 : ℚ) ^ (((expField x).toNat : Int) - 150) := by
  have hexp : ((expField x).toNat : Int) - 127 - 23 = (expField x).toNat - 150 := by omega
  rw [realF32, applySign_eq_neg_one_pow_mul, toNat_decompose_mantissa, hexp]
  push_cast
  ring

theorem abs_realF32 (x : Word) :
    |realF32 x| = (decompose x).mantissa.toNat * (2 : ℚ) ^ (((expField x).toNat : Int) - 150) := by
  have hpos : (0 : ℚ) < 2 ^ (((expField x).toNat : Int) - 150) := by positivity
  rw [realF32_eq, abs_mul, abs_of_pos hpos, ← Int.cast_abs, abs_applySign, Nat.abs_cast, Int.cast_natCast]

theorem abs_realFx (p : FixedPoint) : |realFx p| = (|p.value| : Int) / (2 : ℚ) ^ p.scaling := by
  have hpos : (0 : ℚ) < 2 ^ p.scaling := by positivity
  rw [realFx, abs_div, abs_of_pos hpos, Int.cast_abs]

/-- The significand has its leading 1 at bit 23, so the exponent alone places the operand between two powers of 2. -/
theorem abs_realF32_bounds (x : Word) :
    (2 : ℚ) ^ (((expField x).toNat : Int) - 127) ≤ |realF32 x| ∧ |realF32 x| < (2 : ℚ) ^ (((expField x).toNat : Int) - 126) := by
  obtain ⟨hl, hu⟩ := mantissa_bounds x
  have hpos : (0 : ℚ) < 2 ^ (((expField x).toNat : Int) - 150) := by positivity
  have hlow : (2 : ℚ) ^ (((expField x).toNat : Int) - 127) = 2 ^ 23 * 2 ^ (((expField x).toNat : Int) - 150) := by
    rw [← zpow_natCast, ← zpow_add₀ two_ne_zero]; congr 1; push_cast; omega
  have hhigh : (2 : ℚ) ^ (((expField x).toNat : Int) - 126) = 2 ^ 24 * 2 ^ (((expField x).toNat : Int) - 150) := by
    rw [← zpow_natCast, ← zpow_add₀ two_ne_zero]; congr 1; push_cast; omega
  rw [abs_realF32, hlow, hhigh]
  exact ⟨mul_le_mul_of_nonneg_right (by exact_mod_cast hl) hpos.le, mul_lt_mul_of_pos_right (by exact_mod_cast hu) hpos⟩

theorem two_pow_31_le_abs_realF32_iff (x : Word) : (2 : ℚ) ^ 31 ≤ |realF32 x| ↔ 158 ≤ (expField x).toNat := by
  obtain ⟨hl, hu⟩ := abs_realF32_bounds x
  rw [← zpow_natCast]
  constructor
  · intro h
    have hlt := (zpow_lt_zpow_iff_right₀ one_lt_two).1 (h.trans_lt hu)
    omega
  · intro h
    exact ((zpow_le_zpow_iff_right₀ one_lt_two).2 (by omega)).trans hl

/-- Settles O20: the choice of scaling, the bias, and the powers of 2 around the operand. -/
theorem saturationThresholdIsTwoToThe31 : Obligations.SaturationThresholdIsTwoToThe31 := by
  unfold Obligations.SaturationThresholdIsTwoToThe31
  intro x
  have hfield : 31 ≤ (decompose x).exponent ↔ 158 ≤ (expField x).toNat := by rw [decompose_exponent]; omega
  exact ⟨chooseScaling_neg_iff _, hfield, fun _ => hfield.trans (two_pow_31_le_abs_realF32_iff x).symm⟩

/-! ### Exact, truncated and underflowing operands (R100 items a to d) -/

theorem isZeroFloat_of_expField_pos (x : Word) (h : 1 ≤ (expField x).toNat) : isZeroFloat x = false := by
  rw [toNat_expField] at h
  rw [← Bool.not_eq_true, isZeroFloat_iff]
  omega

/-- The left shift and the scaling cancel: the real number is that of the operand. -/
theorem realFx_tofix_of_exact (x : Word) (hl : 120 ≤ (expField x).toNat) (hu : (expField x).toNat < 158) :
    realFx (tofix x) = realF32 x := by
  have hexp : ((expField x).toNat : Int) - 150 =
      (min ((expField x).toNat - 120) 7 : Nat) - min (157 - ((expField x).toNat : Int)) 30 := by omega
  rw [tofix_of_lt x (isZeroFloat_of_expField_pos x (by omega)) hu, shiftedSignificand_of_le x hl, realF32_eq, hexp,
    zpow_sub₀ two_ne_zero, zpow_natCast, realFx, Nat.cast_mul, applySign_mul]
  push_cast
  ring

/-- Settles O22: `realFx_tofix_of_exact`, and the left shift as 7 or as 7 less the negative exponent. -/
theorem tofixIsExactFromTwoToTheMinus7 : Obligations.TofixIsExactFromTwoToTheMinus7 := by
  unfold Obligations.TofixIsExactFromTwoToTheMinus7
  intro x _ hl hu
  rw [decompose_exponent] at hl hu ⊢
  have hge : 120 ≤ (expField x).toNat := by omega
  have hlt : (expField x).toNat < 158 := by omega
  have hz := isZeroFloat_of_expField_pos x (by omega)
  have hvalue := abs_tofix_value_of_lt x hz hlt
  rw [shiftedSignificand_of_le x hge] at hvalue
  have hscaling : (tofix x).scaling = min (157 - ((expField x).toNat : Int)) 30 := by rw [tofix_of_lt x hz hlt]
  refine ⟨realFx_tofix_of_exact x hge hlt, fun he => ⟨?_, ?_⟩, fun he => ⟨?_, ?_⟩⟩
  · have hshift : min ((expField x).toNat - 120) 7 = 7 := by omega
    rw [hvalue, hshift]; push_cast; norm_num
  · rw [hscaling]; omega
  · have hshift : min ((expField x).toNat - 120) 7 = (7 + (((expField x).toNat : Int) - 127)).toNat := by omega
    rw [hvalue, hshift]; push_cast; rfl
  · rw [hscaling]; omega

/-- Dropping the low `d` bits of `m` loses less than one unit of the bit above them. -/
theorem div_two_pow_sub_bounds (m d : Nat) :
    (0 : ℚ) ≤ m / 2 ^ d - (m / 2 ^ d : Nat) ∧ (m : ℚ) / 2 ^ d - (m / 2 ^ d : Nat) < 1 := by
  have hpos : (0 : ℚ) < 2 ^ d := by positivity
  have hdecomp : (2 ^ d * (m / 2 ^ d : Nat) + (m % 2 ^ d : Nat) : ℚ) = m := by exact_mod_cast Nat.div_add_mod m (2 ^ d)
  have hrem : ((m % 2 ^ d : Nat) : ℚ) < 2 ^ d := by exact_mod_cast Nat.mod_lt m (Nat.two_pow_pos d)
  have hdiff : (m : ℚ) / 2 ^ d - (m / 2 ^ d : Nat) = (m % 2 ^ d : Nat) / 2 ^ d := by
    rw [eq_div_iff hpos.ne', sub_mul, div_mul_cancel₀ _ hpos.ne']
    linarith
  rw [hdiff, div_lt_one hpos]
  exact ⟨by positivity, hrem⟩

/-- Settles O23: the operand in units of 2^-30 is `M / 2^d`, and the result is its quotient. -/
theorem tofixTruncatesTheMagnitudeTowardZero : Obligations.TofixTruncatesTheMagnitudeTowardZero := by
  unfold Obligations.TofixTruncatesTheMagnitudeTowardZero
  intro x _ hl hu
  obtain ⟨hm, -⟩ := mantissa_bounds x
  rw [decompose_exponent] at hl hu ⊢
  generalize hd : 120 - (expField x).toNat = d
  have hamount : (-7 - (((expField x).toNat : Int) - 127)).toNat = d := by omega
  have hz := isZeroFloat_of_expField_pos x (by omega)
  have hvalue := abs_tofix_value_of_lt x hz (by omega)
  rw [shiftedSignificand_of_lt x (by omega), hd] at hvalue
  have hscaling : (tofix x).scaling = 30 := by rw [tofix_of_lt x hz (by omega)]; dsimp only; omega
  have hone : 1 ≤ (decompose x).mantissa.toNat / 2 ^ d := by
    rw [Nat.one_le_div_iff (Nat.two_pow_pos d)]
    exact (Nat.pow_le_pow_right (by decide) (by omega)).trans hm
  have hreal : |realF32 x| - |realFx (tofix x)| =
      ((decompose x).mantissa.toNat / 2 ^ d - ((decompose x).mantissa.toNat / 2 ^ d : Nat)) * (2 : ℚ) ^ (-30 : Int) := by
    have hexp : ((expField x).toNat : Int) - 150 = -30 - (d : Int) := by omega
    rw [abs_realF32, abs_realFx, hvalue, hscaling, hexp, zpow_sub₀ two_ne_zero, zpow_natCast, Int.cast_natCast]
    ring
  have hunit : (0 : ℚ) < 2 ^ (-30 : Int) := by positivity
  obtain ⟨hnonneg, hltone⟩ := div_two_pow_sub_bounds (decompose x).mantissa.toNat d
  rw [hamount, hreal, hvalue]
  exact ⟨rfl, hscaling, by exact_mod_cast hone, mul_nonneg hnonneg hunit.le, (mul_lt_iff_lt_one_left hunit).2 hltone⟩

/-- Below exponent -30 every bit of the significand is shifted out, and the scaling stays 30 (D24). -/
theorem tofix_of_underflow (x : Word) (hz : isZeroFloat x = false) (h : (expField x).toNat ≤ 96) :
    tofix x = { value := 0, scaling := 30 } := by
  obtain ⟨-, hm⟩ := mantissa_bounds x
  have hzero : shiftedSignificand x = 0 := by
    rw [shiftedSignificand_of_lt x (by omega)]
    exact Nat.div_eq_of_lt (hm.trans_le (Nat.pow_le_pow_right (by decide) (by omega)))
  have hscl : min (157 - ((expField x).toNat : Int)) 30 = 30 := by omega
  rw [tofix_of_lt x hz (by omega), hzero, hscl, Nat.cast_zero, applySign_zero]

/-- Settles O24: `tofix_of_underflow`, and the zero path of FROMFIX. -/
theorem tofixUnderflowsToZeroAtScaling30 : Obligations.TofixUnderflowsToZeroAtScaling30 := by
  unfold Obligations.TofixUnderflowsToZeroAtScaling30
  intro x hnormal he
  obtain ⟨hl, -⟩ := (floatClass_eq_normal_iff x).1 hnormal
  rw [decompose_exponent] at he
  rw [tofix_of_underflow x (isZeroFloat_of_expField_pos x hl) (by omega)]
  exact ⟨rfl, by decide, fromfix_of_zero _ rfl⟩

/-! ### The sign flipped (R100 item g) -/

theorem signField_flip (x : Word) : signField (x ^^^ 0x80000000#32) = signField x ^^^ 1 := by
  rw [signField, BitVec.extractLsb'_xor]; rfl

theorem expField_flip (x : Word) : expField (x ^^^ 0x80000000#32) = expField x := by
  have hzero : (0x80000000#32).extractLsb' 23 8 = 0#8 := by decide
  rw [expField, BitVec.extractLsb'_xor, hzero, BitVec.xor_zero]; rfl

theorem mantField_flip (x : Word) : mantField (x ^^^ 0x80000000#32) = mantField x := by
  have hzero : (0x80000000#32).extractLsb' 0 23 = 0#23 := by decide
  rw [mantField, BitVec.extractLsb'_xor, hzero, BitVec.xor_zero]; rfl

theorem isZeroFloat_flip (x : Word) : isZeroFloat (x ^^^ 0x80000000#32) = isZeroFloat x := by
  have hzero : (0x80000000#32).extractLsb' 0 31 = 0#31 := by decide
  rw [isZeroFloat, BitVec.extractLsb'_xor, hzero, BitVec.xor_zero]; rfl

theorem shiftedSignificand_flip (x : Word) : shiftedSignificand (x ^^^ 0x80000000#32) = shiftedSignificand x := by
  rw [shiftedSignificand, shiftedSignificand, toNat_decompose_mantissa, toNat_decompose_mantissa, expField_flip, mantField_flip]

theorem applySign_flip (sign : BitVec 1) (m : Int) : applySign (sign ^^^ 1) m = -applySign sign m := by
  rcases BitVec.eq_zero_or_eq_one sign with rfl | rfl <;> simp [applySign, neg]

/-- MIN and MAX are not negatives of each other: -2^31 and 2^31 - 1. -/
theorem saturate_flip (sign : BitVec 1) :
    (saturate (sign ^^^ 1)).value = -(saturate sign).value - 1 ∧ (saturate (sign ^^^ 1)).scaling = (saturate sign).scaling := by
  revert sign; decide

/-- Settles O25: the flip changes the sign field and nothing else TOFIX looks at. -/
theorem tofixIsSignSymmetric : Obligations.TofixIsSignSymmetric := by
  unfold Obligations.TofixIsSignSymmetric
  intro x
  constructor
  · intro hlt
    cases hz : isZeroFloat x with
    | true => rw [tofix_of_zero x hz, tofix_of_zero _ ((isZeroFloat_flip x).trans hz)]; rfl
    | false =>
      rw [tofix_of_lt x hz hlt, tofix_of_lt _ ((isZeroFloat_flip x).trans hz) (by rwa [expField_flip]), signField_flip,
        expField_flip, shiftedSignificand_flip, applySign_flip]
  · intro hsat
    rw [tofix_of_le x hsat, tofix_of_le _ (by rwa [expField_flip]), signField_flip]
    exact saturate_flip (signField x)

/-! ### Special patterns and the setting (R99) -/

theorem floatClass_eq_subnormal_iff (x : Word) : floatClass x = .subnormal ↔ expField x = 0 ∧ mantField x ≠ 0 := by
  unfold floatClass
  split
  · split <;> simp_all
  · split
    · split <;> simp_all
    · simp_all

/-- A nonzero fraction field is among the bits the zero test looks at. -/
theorem isZeroFloat_of_mantField_ne_zero (x : Word) (h : mantField x ≠ 0) : isZeroFloat x = false := by
  rw [← Bool.not_eq_true, isZeroFloat_iff]
  intro hz
  have hmod : x.toNat % 2 ^ 23 = 0 := by omega
  exact h (BitVec.eq_of_toNat_eq ((toNat_mantField x).trans hmod))

/-- Settles O27: an exponent field of 255 is on the saturation path, and a subnormal underflows. -/
theorem tofixOfASpecialPatternUsesTheUniformDatapath : Obligations.TofixOfASpecialPatternUsesTheUniformDatapath := by
  unfold Obligations.TofixOfASpecialPatternUsesTheUniformDatapath
  intro x s
  have hsat (he : expField x = 255) : tofix x = saturate (signField x) := tofix_of_le x (by rw [he]; decide)
  refine ⟨fun he hs => ?_, fun he hs => ?_, fun hsub => ?_⟩
  · rw [exec_tofix, hsat he, saturate_of_ne_one _ (by rw [hs]; decide)]
  · rw [exec_tofix, hsat he, saturate_of_eq_one _ hs]
  · obtain ⟨he, hm⟩ := (floatClass_eq_subnormal_iff x).1 hsub
    rw [exec_tofix, tofix_of_underflow x (isZeroFloat_of_mantField_ne_zero x hm) (by rw [he]; decide)]

/-- The caller's contract leaves two classes (R172). -/
theorem floatClass_of_tofixContract (x : Word) (h : tofixContract x = true) :
    floatClass x = .zero ∨ floatClass x = .normal := by
  rw [tofixContract, isSpecial] at h
  cases hc : floatClass x <;> simp_all

/-- Settles O28: `tofixOutputs_of_contract` at both settings, and the classes of the contract. -/
theorem tofixSettingIsInvisibleWithinTheContract : Obligations.TofixSettingIsInvisibleWithinTheContract := by
  unfold Obligations.TofixSettingIsInvisibleWithinTheContract
  intro setting x h
  refine ⟨?_, (floatClass_of_tofixContract x h).imp_right (floatClass_eq_normal_iff x).1⟩
  rw [tofixOutputs_of_contract setting x h, tofixOutputs_of_contract .uniformDatapath x h]

end Sys2Proof.Machine
end

section
/-! The properties of FROMFIX (42_from_fixed_point.md R116, R119, R120): the fields of its result, the real number they stand
for, the round trip through TOFIX, and the statements they settle. -/

namespace Sys2Proof.Machine

open Sys2Proof.Safety

/-! ### The mantissa field (R116) -/

/-- The normalized magnitude has 24 bits, so the mask takes off its leading 1. -/
theorem toNat_mantissaFieldOf_of_ne_zero (mag : Word) (h : mag ≠ 0) :
    ((mantissaFieldOf mag).toNat : Int) = normalized mag - 2 ^ 23 := by
  obtain ⟨hl, hu⟩ := normalized_bounds mag h
  rw [toNat_mantissaFieldOf]
  omega

/-- Settles O31: the range of the normalized magnitude, and its field. -/
theorem normalizationPutsTheLeadingOneAtBit23 : Obligations.NormalizationPutsTheLeadingOneAtBit23 := by
  unfold Obligations.NormalizationPutsTheLeadingOneAtBit23
  intro mag h
  obtain ⟨hl, hu⟩ := normalized_bounds mag h
  exact ⟨hl, hu, toNat_mantissaFieldOf_of_ne_zero mag h⟩

/-! ### The fields of the assembled word (R80, R117) -/

@[simp] theorem signField_assemble (sign : BitVec 1) (expfield : BitVec 8) (mant : BitVec 23) :
    signField (assemble sign expfield mant) = sign :=
  (BitVec.extractLsb'_append_eq_of_le (by decide)).trans BitVec.extractLsb'_append_eq_left

@[simp] theorem expField_assemble (sign : BitVec 1) (expfield : BitVec 8) (mant : BitVec 23) :
    expField (assemble sign expfield mant) = expfield :=
  (BitVec.extractLsb'_append_eq_of_le (by decide)).trans BitVec.extractLsb'_append_eq_right

@[simp] theorem mantField_assemble (sign : BitVec 1) (expfield : BitVec 8) (mant : BitVec 23) :
    mantField (assemble sign expfield mant) = mant :=
  BitVec.extractLsb'_append_eq_right

theorem signField_fromfix (p : FixedPoint) (h : p.value ≠ 0) : signField (fromfix p) = signOf p.value := by
  rw [fromfix_of_ne_zero p h, signField_assemble]

theorem mantField_fromfix (p : FixedPoint) (h : p.value ≠ 0) : mantField (fromfix p) = mantissaFieldOf (mag32 p.value) := by
  rw [fromfix_of_ne_zero p h, mantField_assemble]

theorem toNat_expField_fromfix (p : FixedPoint) (h : p.value ≠ 0) :
    ((expField (fromfix p)).toNat : Int) =
      (reconstructedExponent (cub32 (mag32 p.value)) p.scaling + 127) % 256 := by
  rw [fromfix_of_ne_zero p h, expField_assemble, toNat_exponentFieldOf]
  omega

theorem signOf_eq_one_iff (v : Int) : signOf v = 1 ↔ v < 0 := by
  rw [signOf]; split <;> simp_all

/-! ### The exponent and its bound (R115, R119, R175) -/

/-- The counter is determined by the powers of 2 around the word. -/
theorem cub32_eq_of_bounds (u : Word) (n : Nat) (hl : 2 ^ n ≤ u.toNat) (hu : u.toNat < 2 ^ (n + 1)) : cub32 u = n + 1 := by
  have hne : u ≠ 0 := by
    rintro rfl
    exact absurd hl (Nat.not_le.2 (Nat.two_pow_pos n))
  have hlow := (Nat.pow_lt_pow_iff_right one_lt_two).1 ((two_pow_cub32_sub_one_le_toNat u hne).trans_lt hu)
  have hhigh := (Nat.pow_lt_pow_iff_right one_lt_two).1 (hl.trans_lt (toNat_lt_two_pow_cub32 u))
  omega

theorem cub32_eq_one_iff (u : Word) : cub32 u = 1 ↔ u.toNat = 1 := by
  constructor
  · intro h
    have hne : u ≠ 0 := by rintro rfl; exact absurd h (by decide)
    have hl := two_pow_cub32_sub_one_le_toNat u hne
    have hu := toNat_lt_two_pow_cub32 u
    rw [h] at hl hu
    omega
  · intro h
    exact cub32_eq_of_bounds u 0 (by omega) (by omega)

theorem cub32_mag32_bounds (v : Int) (hfits : v.natAbs < 2 ^ 32) (h : v ≠ 0) :
    1 ≤ cub32 (mag32 v) ∧ cub32 (mag32 v) ≤ 32 :=
  ⟨Nat.one_le_iff_ne_zero.2 (cub32_ne_zero _ (mag32_ne_zero v hfits h)), cub32_le _⟩

/-- R175's bound says that the biased exponent is that of a normal pattern. -/
theorem fromfixContract_iff_exponent (p : FixedPoint) (h : p.value ≠ 0) :
    fromfixContract p = true ↔
      1 ≤ reconstructedExponent (cub32 (mag32 p.value)) p.scaling + 127 ∧
        reconstructedExponent (cub32 (mag32 p.value)) p.scaling + 127 ≤ 254 := by
  rw [fromfixContract_iff, reconstructedExponent]
  omega

theorem natAbs_lt_of_wf (p : FixedPoint) (h : p.wf = true) : p.value.natAbs < 2 ^ 32 := by
  obtain ⟨⟨hl, hu⟩, -⟩ := (FixedPoint.wf_iff p).1 h
  omega

/-- Settles O33: the three fields, and 1 to 32 used bits with a scaling that fits its port. -/
theorem fromfixExponentStaysInItsField : Obligations.FromfixExponentStaysInItsField := by
  unfold Obligations.FromfixExponentStaysInItsField
  intro p hwf hnz e
  have hfits := natAbs_lt_of_wf p hwf
  obtain ⟨-, hsl, hsu⟩ := (FixedPoint.wf_iff p).1 hwf
  obtain ⟨hcl, hcu⟩ := cub32_mag32_bounds p.value hfits hnz
  have he : e = cub32 (mag32 p.value) - p.scaling + 126 := by simp only [e, reconstructedExponent]; omega
  have hone := cub32_eq_one_iff (mag32 p.value)
  rw [toNat_mag32 _ hfits] at hone
  refine ⟨by omega, by omega, toNat_expField_fromfix p hnz, ?_, mantField_fromfix p hnz,
    fromfixContract_iff_exponent p hnz, ?_⟩
  · rw [signField_fromfix p hnz, signOf_eq_one_iff]
  · rw [← hone]; omega

/-! ### The real number of the result (R120 item a) -/

theorem floatClass_fromfix (p : FixedPoint) (hnz : p.value ≠ 0) (hc : fromfixContract p = true) :
    floatClass (fromfix p) = .normal := by
  have hexp := toNat_expField_fromfix p hnz
  rw [fromfixContract_iff_exponent p hnz] at hc
  rw [floatClass_eq_normal_iff]
  omega

theorem applySign_signOf (v m : Int) (h : v ≠ 0) : applySign (signOf v) m = v.sign * m := by
  rcases lt_or_gt_of_ne h with hneg | hpos
  · rw [applySign_of_eq_one _ _ ((signOf_eq_one_iff v).2 hneg), Int.sign_eq_neg_one_of_neg hneg, Int.neg_one_mul]
  · rw [applySign_of_ne_one _ _ (mt (signOf_eq_one_iff v).1 hpos.not_gt), Int.sign_eq_one_of_pos hpos, Int.one_mul]

/-- Within the bound the result stands for the normalized magnitude, placed by the reconstructed exponent. -/
theorem realF32_fromfix (p : FixedPoint) (hwf : p.wf = true) (hnz : p.value ≠ 0) (hc : fromfixContract p = true) :
    realF32 (fromfix p) =
      (p.value.sign * normalized (mag32 p.value) : Int) * (2 : ℚ) ^ ((cub32 (mag32 p.value) : Int) - 24) / 2 ^ p.scaling := by
  have hmant : ((decompose (fromfix p)).mantissa.toNat : Int) = normalized (mag32 p.value) := by
    have hfield := toNat_mantissaFieldOf_of_ne_zero _ (mag32_ne_zero _ (natAbs_lt_of_wf p hwf) hnz)
    rw [toNat_decompose_mantissa, mantField_fromfix p hnz]
    omega
  have hexp : ((expField (fromfix p)).toNat : Int) - 150 = (cub32 (mag32 p.value) - 24) - p.scaling := by
    have hfield := toNat_expField_fromfix p hnz
    rw [fromfixContract_iff_exponent p hnz] at hc
    rw [reconstructedExponent] at hc hfield
    omega
  rw [realF32_eq, hmant, hexp, signField_fromfix p hnz, applySign_signOf _ _ hnz, zpow_sub₀ two_ne_zero, mul_div_assoc]

/-- Up to 24 used bits the normalizing shift loses nothing, and the exponent takes it back. -/
theorem realF32_fromfix_of_le (p : FixedPoint) (hwf : p.wf = true) (hnz : p.value ≠ 0) (hc : fromfixContract p = true)
    (h24 : cub32 (mag32 p.value) ≤ 24) : realF32 (fromfix p) = realFx p := by
  have hexp : (cub32 (mag32 p.value) : Int) - 24 = -(24 - cub32 (mag32 p.value) : Nat) := by omega
  rw [realF32_fromfix p hwf hnz hc, normalized_of_le _ h24, toNat_mag32 _ (natAbs_lt_of_wf p hwf), hexp, zpow_neg,
    zpow_natCast, ← Int.mul_assoc, Int.sign_mul_natAbs, realFx]
  push_cast
  rw [mul_assoc, mul_inv_cancel₀ (by positivity), mul_one]

/-- Above 24 used bits the bits shifted out are replaced by zeros. -/
theorem realF32_fromfix_of_lt (p : FixedPoint) (hwf : p.wf = true) (hnz : p.value ≠ 0) (hc : fromfixContract p = true)
    (h24 : 24 < cub32 (mag32 p.value)) :
    realF32 (fromfix p) = realFx { p with value := p.value.sign *
      (p.value.natAbs / 2 ^ (cub32 (mag32 p.value) - 24) * 2 ^ (cub32 (mag32 p.value) - 24) : Nat) } := by
  have hexp : (cub32 (mag32 p.value) : Int) - 24 = (cub32 (mag32 p.value) - 24 : Nat) := by omega
  rw [realF32_fromfix p hwf hnz hc, normalized_of_lt _ h24, toNat_mag32 _ (natAbs_lt_of_wf p hwf), hexp, zpow_natCast, realFx]
  push_cast
  rw [mul_assoc]

/-- Clearing low bits of a magnitude changes it by the bits cleared. -/
theorem abs_sub_sign_mul (v : Int) (k : Nat) :
    |v - v.sign * (v.natAbs / 2 ^ k * 2 ^ k : Nat)| = (v.natAbs % 2 ^ k : Nat) := by
  have hsplit := Nat.div_add_mod' v.natAbs (2 ^ k)
  have hsub : v - v.sign * (v.natAbs / 2 ^ k * 2 ^ k : Nat) = v.sign * (v.natAbs % 2 ^ k : Nat) :=
    calc v - v.sign * (v.natAbs / 2 ^ k * 2 ^ k : Nat)
        = v.sign * v.natAbs - v.sign * (v.natAbs / 2 ^ k * 2 ^ k : Nat) := by rw [Int.sign_mul_natAbs]
      _ = v.sign * (v.natAbs % 2 ^ k : Nat) := by rw [← Int.mul_sub]; congr 1; omega
  rw [hsub, abs_mul, Nat.abs_cast]
  rcases eq_or_ne v 0 with rfl | hne
  · simp
  · rw [Int.abs_sign_of_ne_zero hne, Int.one_mul]

/-- The bits cleared lie below the last of the 24 bits kept. -/
theorem truncation_error_lt (p : FixedPoint) (hwf : p.wf = true) (hnz : p.value ≠ 0) (hc : fromfixContract p = true)
    (h24 : 24 < cub32 (mag32 p.value)) : |realFx p - realF32 (fromfix p)| < |realFx p| * (2 : ℚ) ^ (-23 : Int) := by
  have hfits := natAbs_lt_of_wf p hwf
  have hmag := two_pow_cub32_sub_one_le_toNat _ (mag32_ne_zero _ hfits hnz)
  rw [toNat_mag32 _ hfits] at hmag
  have hreal := realF32_fromfix_of_lt p hwf hnz hc h24
  generalize hk : cub32 (mag32 p.value) - 24 = k at hreal
  have hscale : (0 : ℚ) < 2 ^ p.scaling := by positivity
  have herror : |realFx p - realF32 (fromfix p)| = (p.value.natAbs % 2 ^ k : Nat) / (2 : ℚ) ^ p.scaling := by
    rw [hreal, realFx, realFx, ← sub_div, abs_div, abs_of_pos hscale, ← Int.cast_sub, ← Int.cast_abs, abs_sub_sign_mul,
      Int.cast_natCast]
  have hcleared : p.value.natAbs % 2 ^ k < 2 ^ k := Nat.mod_lt _ (Nat.two_pow_pos k)
  have hkept : 2 ^ k * 2 ^ 23 ≤ p.value.natAbs := by
    have hexp : k + 23 = cub32 (mag32 p.value) - 1 := by omega
    rwa [← Nat.pow_add, hexp]
  have hlt : ((p.value.natAbs % 2 ^ k : Nat) : ℚ) * 2 ^ 23 < p.value.natAbs := by
    exact_mod_cast (Nat.mul_lt_mul_of_pos_right hcleared (by decide)).trans_le hkept
  rw [herror, abs_realFx, ← Int.natCast_natAbs, Int.cast_natCast, div_mul_eq_mul_div, div_lt_div_iff_of_pos_right hscale,
    zpow_neg, ← div_eq_mul_inv, lt_div_iff₀ (by positivity)]
  exact_mod_cast hlt

/-- Settles O32: the class, the real number on either side of 24 used bits, and the error of the bits cleared. -/
theorem fromfixIsExactUpTo24UsedBits : Obligations.FromfixIsExactUpTo24UsedBits := by
  unfold Obligations.FromfixIsExactUpTo24UsedBits
  exact fun p hwf hnz hc => ⟨floatClass_fromfix p hnz hc, realF32_fromfix_of_le p hwf hnz hc,
    fun h24 => ⟨realF32_fromfix_of_lt p hwf hnz hc h24, truncation_error_lt p hwf hnz hc h24⟩⟩

/-! ### The round trip (R120 item b) -/

theorem natAbs_applySign (sign : BitVec 1) (m : Nat) : (applySign sign m).natAbs = m := by
  rw [← Int.natAbs_abs, abs_applySign, Int.natAbs_abs, Int.natAbs_natCast]

theorem mag32_applySign (sign : BitVec 1) (m : Nat) : mag32 (applySign sign m) = BitVec.ofNat 32 m := by
  rw [mag32_eq_ofNat_natAbs, natAbs_applySign]

theorem signOf_applySign (sign : BitVec 1) (m : Nat) (hm : 0 < m) : signOf (applySign sign m) = sign := by
  by_cases h : sign = 1
  · rw [applySign_of_eq_one _ _ h, signOf, if_pos (by omega), h]
  · rw [applySign_of_ne_one _ _ h, signOf, if_neg (by omega)]
    exact ((BitVec.eq_zero_or_eq_one sign).resolve_right h).symm

/-- The magnitude of a TOFIX result, between the powers of 2 its exponent sets. -/
theorem shiftedSignificand_bounds (x : Word) (h : 97 ≤ (expField x).toNat) :
    2 ^ (23 - (120 - (expField x).toNat) + min ((expField x).toNat - 120) 7) ≤ shiftedSignificand x ∧
      shiftedSignificand x < 2 ^ (23 - (120 - (expField x).toNat) + min ((expField x).toNat - 120) 7 + 1) := by
  obtain ⟨hl, hu⟩ := mantissa_bounds x
  rw [shiftedSignificand]
  generalize hd : 120 - (expField x).toNat = d
  generalize min ((expField x).toNat - 120) 7 = k
  have hlow : 2 ^ (23 - d) * 2 ^ d = 2 ^ 23 := by rw [← Nat.pow_add]; congr 1; omega
  have hhigh : 2 ^ (23 - d + 1) * 2 ^ d = 2 ^ 24 := by rw [← Nat.pow_add]; congr 1; omega
  rw [Nat.add_right_comm, Nat.pow_add, Nat.pow_add _ (23 - d + 1)]
  refine ⟨Nat.mul_le_mul_right _ ?_, Nat.mul_lt_mul_of_pos_right ?_ (Nat.two_pow_pos k)⟩
  · rwa [Nat.le_div_iff_mul_le (Nat.two_pow_pos d), hlow]
  · rwa [Nat.div_lt_iff_lt_mul (Nat.two_pow_pos d), hhigh]

theorem toNat_ofNat_shiftedSignificand (x : Word) : (BitVec.ofNat 32 (shiftedSignificand x)).toNat = shiftedSignificand x := by
  have hle := shiftedSignificand_le x
  rw [BitVec.toNat_ofNat, Nat.mod_eq_of_lt (by omega)]

theorem cub32_shiftedSignificand (x : Word) (h : 97 ≤ (expField x).toNat) :
    cub32 (BitVec.ofNat 32 (shiftedSignificand x)) =
      23 - (120 - (expField x).toNat) + min ((expField x).toNat - 120) 7 + 1 := by
  obtain ⟨hl, hu⟩ := shiftedSignificand_bounds x h
  have hnat := toNat_ofNat_shiftedSignificand x
  exact cub32_eq_of_bounds _ _ (hl.trans_eq hnat.symm) (hnat.trans_lt hu)

/-- Normalizing takes TOFIX's shift back, but for the bits it shifted out. -/
theorem normalized_shiftedSignificand (x : Word) (h : 97 ≤ (expField x).toNat) :
    normalized (BitVec.ofNat 32 (shiftedSignificand x)) =
      ((decompose x).mantissa.toNat / 2 ^ (120 - (expField x).toNat) * 2 ^ (120 - (expField x).toNat) : Nat) := by
  have hc := cub32_shiftedSignificand x h
  rcases le_or_gt (expField x).toNat 120 with hle | hgt
  · have hleft : min ((expField x).toNat - 120) 7 = 0 := by omega
    have hback : 24 - cub32 (BitVec.ofNat 32 (shiftedSignificand x)) = 120 - (expField x).toNat := by omega
    rw [normalized_of_le _ (by omega), hback, toNat_ofNat_shiftedSignificand, shiftedSignificand, hleft, Nat.pow_zero,
      Nat.mul_one]
    push_cast; rfl
  · have hright : 120 - (expField x).toNat = 0 := by omega
    have hback : cub32 (BitVec.ofNat 32 (shiftedSignificand x)) - 24 = min ((expField x).toNat - 120) 7 := by omega
    rw [normalized_of_lt _ (by omega), hback, toNat_ofNat_shiftedSignificand, shiftedSignificand_of_le x hgt.le, hright,
      Nat.pow_zero, Nat.div_one, Nat.mul_one, ← Nat.cast_ofNat (R := Int), ← Nat.cast_pow, ← Int.natCast_ediv,
      Nat.mul_div_cancel _ (Nat.two_pow_pos _)]

/-- Clearing low bits of a word within its fraction field clears them in the significand. -/
theorem toNat_div_mul_eq_fields (x : Word) (d : Nat) (hd : d ≤ 23) (h : 1 ≤ (expField x).toNat) :
    x.toNat / 2 ^ d * 2 ^ d + 2 ^ 23 =
      (signField x).toNat * 2 ^ 31 + (expField x).toNat * 2 ^ 23 + (decompose x).mantissa.toNat / 2 ^ d * 2 ^ d := by
  have hpow : 2 ^ d * 2 ^ (23 - d) = 2 ^ 23 := by rw [← Nat.pow_add]; congr 1; omega
  have hword : x.toNat = 2 ^ d * (2 ^ (23 - d) * ((signField x).toNat * 2 ^ 8 + (expField x).toNat - 1)) +
      (decompose x).mantissa.toNat := by
    have hfields := toNat_eq_fields x
    rw [← Nat.mul_assoc, hpow, toNat_decompose_mantissa]
    omega
  rw [hword, Nat.mul_add_div (Nat.two_pow_pos d), Nat.add_mul, Nat.mul_comm _ (2 ^ d), ← Nat.mul_assoc, hpow]
  omega

theorem shiftedSignificand_pos (x : Word) (h : 97 ≤ (expField x).toNat) : 0 < shiftedSignificand x :=
  (Nat.two_pow_pos _).trans_le (shiftedSignificand_bounds x h).1

section
variable {x : Word} (hl : 97 ≤ (expField x).toNat) (hu : (expField x).toNat < 158)
include hl hu

theorem tofix_of_bounds :
    tofix x = { value := applySign (signField x) (shiftedSignificand x),
                scaling := min (157 - (expField x).toNat) 30 } :=
  tofix_of_lt x (isZeroFloat_of_expField_pos x (by omega)) hu

theorem mag32_tofix_value : mag32 (tofix x).value = BitVec.ofNat 32 (shiftedSignificand x) := by
  rw [tofix_of_bounds hl hu, mag32_applySign]

theorem tofix_value_ne_zero : (tofix x).value ≠ 0 := by
  rw [← Int.natAbs_ne_zero, tofix_of_bounds hl hu, natAbs_applySign]
  exact (shiftedSignificand_pos x hl).ne'

theorem signField_fromfix_tofix : signField (fromfix (tofix x)) = signField x := by
  rw [signField_fromfix _ (tofix_value_ne_zero hl hu), tofix_of_bounds hl hu, signOf_applySign _ _ (shiftedSignificand_pos x hl)]

/-- The used bits and the chosen scaling give the operand's exponent back. -/
theorem toNat_expField_fromfix_tofix : (expField (fromfix (tofix x))).toNat = (expField x).toNat := by
  have hfield := toNat_expField_fromfix _ (tofix_value_ne_zero hl hu)
  have hscaling : (tofix x).scaling = min (157 - ((expField x).toNat : Int)) 30 := by rw [tofix_of_bounds hl hu]
  rw [mag32_tofix_value hl hu, cub32_shiftedSignificand x hl, reconstructedExponent, hscaling] at hfield
  omega

theorem toNat_mantField_fromfix_tofix :
    (mantField (fromfix (tofix x))).toNat + 2 ^ 23 =
      (decompose x).mantissa.toNat / 2 ^ (120 - (expField x).toNat) * 2 ^ (120 - (expField x).toNat) := by
  have hmag : BitVec.ofNat 32 (shiftedSignificand x) ≠ 0 := by
    intro hzero
    have hnat := toNat_ofNat_shiftedSignificand x
    rw [hzero] at hnat
    exact (shiftedSignificand_pos x hl).ne hnat
  have hfield := toNat_mantissaFieldOf_of_ne_zero _ hmag
  rw [normalized_shiftedSignificand x hl] at hfield
  rw [mantField_fromfix _ (tofix_value_ne_zero hl hu), mag32_tofix_value hl hu]
  omega

/-- From exponent -30 to 30 the round trip clears the fraction bits TOFIX shifted out and keeps all others. -/
theorem toNat_fromfix_tofix :
    (fromfix (tofix x)).toNat = x.toNat / 2 ^ (120 - (expField x).toNat) * 2 ^ (120 - (expField x).toNat) := by
  have hcleared := toNat_div_mul_eq_fields x (120 - (expField x).toNat) (by omega) (by omega)
  have hmant := toNat_mantField_fromfix_tofix hl hu
  rw [toNat_eq_fields (fromfix (tofix x)), signField_fromfix_tofix hl hu, toNat_expField_fromfix_tofix hl hu]
  omega

end

/-- Settles O34: `toNat_fromfix_tofix` off the ends, the zero path below and the two bounds above. -/
theorem roundTripThroughFixedPoint : Obligations.RoundTripThroughFixedPoint := by
  unfold Obligations.RoundTripThroughFixedPoint
  intro x hnormal
  obtain ⟨hpos, -⟩ := (floatClass_eq_normal_iff x).1 hnormal
  rw [decompose_exponent]
  have hmax : fromfix FixedPoint.max = 0x4EFFFFFF#32 := by decide
  have hmin : fromfix FixedPoint.min = 0xCF000000#32 := by decide
  refine ⟨fun hl hu => ?_, fun hl hu => ?_, fun hu => ?_, fun hl hs => ?_, fun hl hs => ?_⟩
  · have hexact : 120 - (expField x).toNat = 0 := by omega
    apply BitVec.eq_of_toNat_eq
    rw [toNat_fromfix_tofix (x := x) (by omega) (by omega), hexact, Nat.pow_zero, Nat.div_one, Nat.mul_one]
  · have hamount : (-7 - (((expField x).toNat : Int) - 127)).toNat = 120 - (expField x).toNat := by omega
    have hlt := (Nat.div_mul_le_self x.toNat (2 ^ (120 - (expField x).toNat))).trans_lt x.isLt
    apply BitVec.eq_of_toNat_eq
    rw [toNat_fromfix_tofix (x := x) (by omega) (by omega), hamount, BitVec.toNat_shiftLeft, BitVec.toNat_ushiftRight,
      Nat.shiftRight_eq_div_pow, Nat.shiftLeft_eq, Nat.mod_eq_of_lt hlt]
  · rw [tofix_of_underflow x (isZeroFloat_of_expField_pos x hpos) (by omega), fromfix_of_zero _ rfl]
  · rw [tofix_of_le x (by omega), saturate_of_ne_one _ (by rw [hs]; decide), hmax]
  · rw [tofix_of_le x (by omega), saturate_of_eq_one _ hs, hmin]

end Sys2Proof.Machine
end

section
/-! The datapath and the limits of MUL (43_multiply.md R131 to R134, R139, R155), and what the lifecycle of a FixedPoint keeps
(10_state.md R29; 70_reset_and_hazards.md R175), with the statements they settle. -/

namespace Sys2Proof.Machine

open Sys2Proof.Safety

/-! ### The wide product (R131) -/

/-- The product of two integers of a symmetric-but-one range is least at opposite ends. -/
theorem wideProduct_bounds (x y : FixedPoint) (hx : x.wf = true) (hy : y.wf = true) :
    -2 ^ 62 + 2 ^ 31 ≤ wideProduct x y ∧ wideProduct x y ≤ 2 ^ 62 := by
  obtain ⟨⟨hxl, hxu⟩, -⟩ := (FixedPoint.wf_iff x).1 hx
  obtain ⟨⟨hyl, hyu⟩, -⟩ := (FixedPoint.wf_iff y).1 hy
  rw [wideProduct]
  constructor <;> nlinarith

/-- The greatest product needs both operands at -2^31: any other left operand leaves the product short. -/
theorem wideProduct_eq_max_iff (x y : FixedPoint) (hx : x.wf = true) (hy : y.wf = true) :
    wideProduct x y = 2 ^ 62 ↔ x.value = -2 ^ 31 ∧ y.value = -2 ^ 31 := by
  obtain ⟨⟨hxl, hxu⟩, -⟩ := (FixedPoint.wf_iff x).1 hx
  obtain ⟨⟨hyl, hyu⟩, -⟩ := (FixedPoint.wf_iff y).1 hy
  rw [wideProduct]
  constructor
  · intro h
    have hxmin : x.value ≤ -2 ^ 31 := by by_contra hgt; nlinarith
    have hymin : y.value ≤ -2 ^ 31 := by by_contra hgt; nlinarith
    omega
  · rintro ⟨h1, h2⟩
    rw [h1, h2]; norm_num

theorem toInt_ofInt_wideProduct (x y : FixedPoint) (hx : x.wf = true) (hy : y.wf = true) :
    (BitVec.ofInt 64 (wideProduct x y)).toInt = wideProduct x y := by
  obtain ⟨hl, hu⟩ := wideProduct_bounds x y hx hy
  exact BitVec.toInt_ofInt_eq_self (by decide) (by omega) (by omega)

/-- Settles O36: the product's range, which a signed 64-bit word holds, and its top end. -/
theorem wideProductFits64Bits : Obligations.WideProductFits64Bits := by
  unfold Obligations.WideProductFits64Bits
  intro x y hx hy
  obtain ⟨hl, hu⟩ := wideProduct_bounds x y hx hy
  exact ⟨hl, hu, toInt_ofInt_wideProduct x y hx hy, wideProduct_eq_max_iff x y hx hy⟩

/-- The 64-bit multiplier answers the exact product of its operands. -/
theorem signExtend_mul_signExtend (a b : Word) (aScl bScl : SclWord) :
    a.signExtend 64 * b.signExtend 64 = BitVec.ofInt 64 (wideProduct (fixedOperand a aScl) (fixedOperand b bScl)) := by
  rw [fixedOperand_eq_toInt, fixedOperand_eq_toInt, wideProduct, BitVec.ofInt_mul]
  rfl

/-- Settles O37: multiplier, shifter and low word, each as its integer operation. -/
theorem mulEqualsThe64BitDatapath : Obligations.MulEqualsThe64BitDatapath := by
  unfold Obligations.MulEqualsThe64BitDatapath
  intro a b aScl bScl hs
  have hshift : mulShift (fixedOperand a aScl) (fixedOperand b bScl) = aScl.toInt + bScl.toInt := by
    rw [fixedOperand_eq_toInt, fixedOperand_eq_toInt, mulShift]
  have hwide := toInt_ofInt_wideProduct _ _ (wf_fixedOperand a aScl) (wf_fixedOperand b bScl)
  rw [valuePattern_mul, hshift, shiftedProduct_of_nonneg _ _ hs, signExtend_mul_signExtend a b aScl bScl,
    ← BitVec.signExtend_eq_setWidth_of_le _ (by decide), BitVec.signExtend, BitVec.toInt_sshiftRight, hwide,
    Int.shiftRight_eq_div_pow, unsignedN]
  push_cast
  rfl

/-! ### The ends of the shift amount (R133, R134) -/

/-- Settles O40: a product below 2^63 in magnitude leaves its sign, and a multiple of 2^32 has no low word. -/
theorem mulAtExtremeShiftAmounts : Obligations.MulAtExtremeShiftAmounts := by
  unfold Obligations.MulAtExtremeShiftAmounts
  intro x y hx hy
  obtain ⟨hl, hu⟩ := wideProduct_bounds x y hx hy
  rw [mul_value]
  have hpow (h : 63 ≤ mulShift x y) : (2 : Int) ^ 63 ≤ 2 ^ (mulShift x y).toNat :=
    pow_le_pow_right₀ (by decide) (by omega)
  refine ⟨fun hs hp => ?_, fun hs hp => ?_, fun hs => ?_⟩
  · have hbig := hpow hs
    rw [shiftedProduct_of_nonneg _ _ (by omega), Int.ediv_eq_zero_of_lt hp (by omega)]; rfl
  · have hbig := hpow hs
    rw [shiftedProduct_of_nonneg _ _ (by omega), Int.ediv_eq_neg_one_of_neg_of_le hp (by omega)]; rfl
  · have hdvd : (2 : Int) ^ 32 ∣ wideProduct x y * 2 ^ (-mulShift x y).toNat :=
      (pow_dvd_pow 2 (by omega)).mul_left _
    rw [shiftedProduct_of_neg _ _ (by omega), trunc32_eq_bmod]
    exact Int.bmod_eq_zero_of_dvd (by exact_mod_cast hdvd)

/-! ### The value as a real number (R139), and a zero operand (R155) -/

theorem realFx_mul_realFx (x y : FixedPoint) : realFx x * realFx y = (wideProduct x y : ℚ) / 2 ^ mulShift x y := by
  rw [realFx, realFx, wideProduct, mulShift, zpow_add₀ two_ne_zero, div_mul_div_comm]
  push_cast
  rfl

/-- Settles O41: the shift is the floor of the real product, which the narrowing keeps when it fits. -/
theorem mulValueIsTheFloorOfTheRealProduct : Obligations.MulValueIsTheFloorOfTheRealProduct := by
  unfold Obligations.MulValueIsTheFloorOfTheRealProduct
  intro x y hs hl hu
  have hfloor : shiftedProduct (wideProduct x y) (mulShift x y) = ⌊realFx x * realFx y⌋ := by
    rw [shiftedProduct_eq_floor _ _ hs, realFx_mul_realFx, ← zpow_natCast, Int.toNat_of_nonneg hs]
  have hvalue : (mul x y).value = ⌊realFx x * realFx y⌋ := by
    rw [mul_value, hfloor, trunc32_eq_self _ hl hu]
  exact ⟨hvalue, by rw [realFx, hvalue, mul_scaling]⟩

theorem shiftedProduct_zero (s : Int) : shiftedProduct 0 s = 0 := by
  rcases lt_or_ge s 0 with h | h
  · rw [shiftedProduct_of_neg _ _ h, Int.zero_mul]
  · rw [shiftedProduct_of_nonneg _ _ h, Int.zero_ediv]

/-- Settles O42: a zero product is zero after any shift, and the scaling is not looked at. -/
theorem mulByZeroKeepsTheLeftScaling : Obligations.MulByZeroKeepsTheLeftScaling := by
  unfold Obligations.MulByZeroKeepsTheLeftScaling
  intro x y s h
  have hproduct : wideProduct x y = 0 := Int.mul_eq_zero.2 h
  rw [exec_mul, mul_value, hproduct, shiftedProduct_zero]
  rfl

/-! ### Lifecycle-reachable values (R29, R175) and the contracts (D19) -/

theorem wf_mul (x y : FixedPoint) (hl : 0 ≤ x.scaling) (hu : x.scaling ≤ 30) : (mul x y).wf = true := by
  have hvalue := trunc32_bounds (shiftedProduct (wideProduct x y) (mulShift x y))
  rw [FixedPoint.wf_iff, mul_value, mul_scaling]
  omega

theorem wf_of_lifecycleReachable (p : FixedPoint) (h : LifecycleReachable p) : p.wf = true := by
  cases h with
  | ofTofix x => exact wf_tofix x
  | ofMul x y hx _ =>
    obtain ⟨hl, hu⟩ := scaling_bounds_of_lifecycleReachable x hx
    exact wf_mul x y hl hu

/-- A scaling of 0 to 30 is within FROMFIX's bound whatever the value (R175). -/
theorem fromfixContract_of_lifecycleReachable (p : FixedPoint) (h : LifecycleReachable p) : fromfixContract p = true := by
  obtain ⟨hl, hu⟩ := scaling_bounds_of_lifecycleReachable p h
  have hbits := cub32_le (mag32 p.value)
  rw [fromfixContract_iff]
  omega

/-- Settles O52: the ranges of value and scaling, and 1 to 32 used bits for a nonzero value. -/
theorem lifecycleReachableValuesStayInRange : Obligations.LifecycleReachableValuesStayInRange := by
  unfold Obligations.LifecycleReachableValuesStayInRange
  intro p hp
  obtain ⟨hl, hu⟩ := scaling_bounds_of_lifecycleReachable p hp
  have hwf := wf_of_lifecycleReachable p hp
  refine ⟨hwf, hl, hu, fromfixContract_of_lifecycleReachable p hp, fun hnz => ?_⟩
  have hbits := cub32_mag32_bounds p.value (natAbs_lt_of_wf p hwf) hnz
  rw [reconstructedExponent]
  omega

/-- Settles O55: MUL's contract as inequalities, and 0 to 60 for a sum of two lifecycle-reachable scalings. -/
theorem contractsHoldForLifecycleReachableOperands : Obligations.ContractsHoldForLifecycleReachableOperands := by
  unfold Obligations.ContractsHoldForLifecycleReachableOperands
  refine ⟨fun x y => ?_, fun x y hx hy => ⟨?_, fromfixContract_of_lifecycleReachable x hx⟩⟩
  · rw [callerRespects, ← Bool.not_eq_true, mulContract_iff]
    omega
  · obtain ⟨hxl, hxu⟩ := scaling_bounds_of_lifecycleReachable x hx
    obtain ⟨hyl, hyu⟩ := scaling_bounds_of_lifecycleReachable y hy
    rw [callerRespects, mulContract_iff]
    omega

end Sys2Proof.Machine
end
